-- ==== Sys2Proof/Word.lean ====
section
/-! DEFINITION. The sizes of data this machine names: bytes, 16-bit words, register numbers. -/

namespace Sys2Proof

/-- A register's contents or a memory cell: 8 bits, unsigned (10_state.md R21, 20_memory.md R50). -/
abbrev Byte := BitVec 8

/-- 16 bits: an instruction word (R80), `I` (R23), `pc` (R24), a stack entry (R25). -/
abbrev Word := BitVec 16

/-- The number of a general register; every value of a 4-bit field names one (R21). -/
abbrev Reg := Fin 16

/-- `VF`, register 15, the machine's only flag (R22). -/
abbrev VF : Reg := 15

end Sys2Proof
end

