-- ==== Sys2Proof/Config.lean ====
section
/-! DEFINITION. The fixed parameters of the core (00_scope.md R2) and the values it leaves free (R3). -/

namespace Sys2Proof.Config

/-- MEM_SIZE: bytes of memory, addresses 0x000 to 0xFFF (R2). -/
abbrev memSize : Nat := 4096

/-- PROG_BASE: where a program is loaded and the first `pc` (R2). -/
abbrev progBase : Nat := 0x200

/-- MAX_PROG: the most program bytes `Load` keeps (R2, R63). -/
abbrev maxProg : Nat := 3584

/-- FONT_BASE: where the glyphs stand (R2). -/
abbrev fontBase : Nat := 0x000

/-- GLYPH_SIZE: bytes of one glyph (R2). -/
abbrev glyphSize : Nat := 5

/-- The font region holds 16 glyphs (R2). -/
abbrev fontSize : Nat := 80

/-- STACK_DEPTH: entries of the call stack (R2). -/
abbrev stackDepth : Nat := 16

/-- The 16 keys of a cycle whose `keys` no pending request gives, by the number of the cycle: a FREE VALUE
(R33: an input, sampled by the host; notes/assumptions/1.md, DESIGN CHOICE, safe). -/
opaque freeKeys : Nat → Vector Bool 16

/-- The random byte of a cycle whose `rand` no pending request gives, by the number of the cycle: a FREE VALUE
(R196: "any of the 256 values, independent from cycle to cycle, under no law"; notes/assumptions/1.md). -/
opaque freeRand : Nat → Byte

end Sys2Proof.Config
end

