-- ==== Sys2Proof/Syntax.lean ====
section
/-! DEFINITION. The 34 instructions, one constructor for each row of 30_encoding.md R84 (spec/opcode_table.json), in its order. -/

namespace Sys2Proof

/-- The operands as R81 and R83 give them: `x` and `y` are register numbers, `kk` is a byte, `nnn` is the 12-bit
address operand held in a 16-bit container (90_conflicts.md C1), `n` is a count of sprite rows. `WellFormed.lean`
says which containers and counts an instruction word can hold. SHR and SHL keep the `y` field they ignore, so
that an instruction is exactly what its word says (notes/assumptions/8.md, DESIGN CHOICE). -/
inductive Instr where
  /-- `00E0` CLS (R180) -/
  | cls
  /-- `00EE` RET (R120) -/
  | ret
  /-- `1nnn` JP nnn (R121) -/
  | jp (nnn : Word)
  /-- `2nnn` CALL nnn (R122) -/
  | call (nnn : Word)
  /-- `3xkk` SE Vx, kk (R123) -/
  | seByte (x : Reg) (kk : Byte)
  /-- `4xkk` SNE Vx, kk (R124) -/
  | sneByte (x : Reg) (kk : Byte)
  /-- `5xy0` SE Vx, Vy (R125) -/
  | seReg (x y : Reg)
  /-- `9xy0` SNE Vx, Vy (R126) -/
  | sneReg (x y : Reg)
  /-- `6xkk` LD Vx, kk (R140) -/
  | ldByte (x : Reg) (kk : Byte)
  /-- `7xkk` ADD Vx, kk (R141) -/
  | addByte (x : Reg) (kk : Byte)
  /-- `8xy0` LD Vx, Vy (R142) -/
  | ldReg (x y : Reg)
  /-- `8xy1` OR Vx, Vy (R143) -/
  | orReg (x y : Reg)
  /-- `8xy2` AND Vx, Vy (R144) -/
  | andReg (x y : Reg)
  /-- `8xy3` XOR Vx, Vy (R145) -/
  | xorReg (x y : Reg)
  /-- `8xy4` ADD Vx, Vy (R146) -/
  | addReg (x y : Reg)
  /-- `8xy5` SUB Vx, Vy (R147) -/
  | subReg (x y : Reg)
  /-- `8xy6` SHR Vx; `y` is decoded and ignored (R148) -/
  | shr (x y : Reg)
  /-- `8xy7` SUBN Vx, Vy (R149) -/
  | subnReg (x y : Reg)
  /-- `8xyE` SHL Vx; `y` is decoded and ignored (R150) -/
  | shl (x y : Reg)
  /-- `Ex9E` SKP Vx (R193) -/
  | skp (x : Reg)
  /-- `ExA1` SKNP Vx (R194) -/
  | sknp (x : Reg)
  /-- `Annn` LD I, nnn (R160) -/
  | ldI (nnn : Word)
  /-- `Bnnn` JP V0, nnn (R128) -/
  | jpV0 (nnn : Word)
  /-- `Cxkk` RND Vx, kk (R196) -/
  | rnd (x : Reg) (kk : Byte)
  /-- `Dxyn` DRW Vx, Vy, n (R181) -/
  | drw (x y : Reg) (n : Nat)
  /-- `Fx07` LD Vx, DT (R190) -/
  | ldVxDT (x : Reg)
  /-- `Fx0A` LD Vx, K (R195) -/
  | ldVxK (x : Reg)
  /-- `Fx15` LD DT, Vx (R191) -/
  | ldDT (x : Reg)
  /-- `Fx18` LD ST, Vx (R192) -/
  | ldST (x : Reg)
  /-- `Fx1E` ADD I, Vx (R161) -/
  | addI (x : Reg)
  /-- `Fx29` LD F, Vx (R162) -/
  | ldF (x : Reg)
  /-- `Fx33` LD B, Vx (R163) -/
  | ldB (x : Reg)
  /-- `Fx55` LD [I], Vx (R164) -/
  | ldMemVx (x : Reg)
  /-- `Fx65` LD Vx, [I] (R165) -/
  | ldVxMem (x : Reg)
deriving DecidableEq, Repr

end Sys2Proof
end

