-- ==== Sys2Proof/WellFormed.lean ====
section
/-! DEFINITION. Which instructions an instruction word can hold: the ranges of the operands (30_encoding.md R81, R83). -/

namespace Sys2Proof

/-- An address operand is 12 bits: 0x000 to 0xFFF (R81, R83). -/
def wfAddr (nnn : Word) : Bool := decide (nnn.toNat ≤ 0xFFF)

/-- A sprite has 0 to 15 rows (R83). -/
def wfRows (n : Nat) : Bool := decide (n ≤ 15)

/-- The operands fit the fields of the instruction word. Registers and bytes fit by their types. -/
def Instr.wf : Instr → Bool
  | .jp nnn => wfAddr nnn
  | .call nnn => wfAddr nnn
  | .ldI nnn => wfAddr nnn
  | .jpV0 nnn => wfAddr nnn
  | .drw _ _ n => wfRows n
  | .cls => true
  | .ret => true
  | .seByte _ _ => true
  | .sneByte _ _ => true
  | .seReg _ _ => true
  | .sneReg _ _ => true
  | .ldByte _ _ => true
  | .addByte _ _ => true
  | .ldReg _ _ => true
  | .orReg _ _ => true
  | .andReg _ _ => true
  | .xorReg _ _ => true
  | .addReg _ _ => true
  | .subReg _ _ => true
  | .shr _ _ => true
  | .subnReg _ _ => true
  | .shl _ _ => true
  | .skp _ => true
  | .sknp _ => true
  | .rnd _ _ => true
  | .ldVxDT _ => true
  | .ldVxK _ => true
  | .ldDT _ => true
  | .ldST _ => true
  | .addI _ => true
  | .ldF _ => true
  | .ldB _ => true
  | .ldMemVx _ => true
  | .ldVxMem _ => true

end Sys2Proof
end

