-- ==== Sys2Proof/Decode.lean ====
section
/-! DEFINITION. From bytes to an instruction and back (30_encoding.md R80 to R87): the fields, the decoder, the opcode
map as data, the encoder, and `decodeTableWord` for the host. -/

namespace Sys2Proof

/-! ## Fields (R81) -/

/-- `fam = op[15:12]` (R81). -/
def opFam (op : Word) : BitVec 4 := op.extractLsb' 12 4

/-- `nnn = op[11:0]`, in its 16-bit container (R81, 90_conflicts.md C1). -/
def opNNN (op : Word) : Word := (op.extractLsb' 0 12).setWidth 16

/-- The register a 4-bit field selects: all 16 values are valid (R83). -/
def regOfNibble (b : BitVec 4) : Reg := ⟨b.toNat, b.isLt⟩

/-- `x = op[11:8]` (R81). -/
def opX (op : Word) : Reg := regOfNibble (op.extractLsb' 8 4)

/-- `y = op[7:4]` (R81). -/
def opY (op : Word) : Reg := regOfNibble (op.extractLsb' 4 4)

/-- `kk = op[7:0]` (R81). -/
def opKK (op : Word) : Byte := op.extractLsb' 0 8

/-- `n = op[3:0]` (R81). -/
def opN (op : Word) : BitVec 4 := op.extractLsb' 0 4

/-! ## The decoder (R84 to R87) -/

/-- Why a list of bytes is no instruction. The six families are those of R86's table: the other ten have no
unrecognized word. An unrecognized word is no fault: `step` runs it as a no-op (40_cycle.md R109). -/
inductive Reject where
  /-- Fewer than two bytes: no instruction word (R80). Raised by `decodeBytes` alone; safe. -/
  | tooFewBytes
  /-- `0nnn` other than `00E0` and `00EE` (R86). -/
  | unrecognized0
  /-- `5xyn` with `n` not 0 (R86). -/
  | unrecognized5
  /-- `8xyn` with `n` in 8, 9, A, B, C, D, F (R86, R153). -/
  | unrecognized8
  /-- `9xyn` with `n` not 0 (R86). -/
  | unrecognized9
  /-- `Exkk` with `kk` other than 0x9E and 0xA1 (R86). -/
  | unrecognizedE
  /-- `Fxkk` with `kk` none of the nine sub-opcodes (R86). -/
  | unrecognizedF
deriving DecidableEq, Repr

/-- Family 0 is decoded on the whole word (R85). -/
def decode0 (op : Word) : Except Reject Instr :=
  if op = 0x00E0#16 then .ok .cls
  else if op = 0x00EE#16 then .ok .ret
  else .error .unrecognized0

/-- Family 5 requires `n = 0` (R85). -/
def decode5 (op : Word) : Except Reject Instr :=
  if opN op = 0x0#4 then .ok (.seReg (opX op) (opY op)) else .error .unrecognized5

/-- Family 8 is decoded on `n` (R85, R153). -/
def decode8 (op : Word) : Except Reject Instr :=
  match opN op with
  | 0x0#4 => .ok (.ldReg (opX op) (opY op))
  | 0x1#4 => .ok (.orReg (opX op) (opY op))
  | 0x2#4 => .ok (.andReg (opX op) (opY op))
  | 0x3#4 => .ok (.xorReg (opX op) (opY op))
  | 0x4#4 => .ok (.addReg (opX op) (opY op))
  | 0x5#4 => .ok (.subReg (opX op) (opY op))
  | 0x6#4 => .ok (.shr (opX op) (opY op))
  | 0x7#4 => .ok (.subnReg (opX op) (opY op))
  | 0xE#4 => .ok (.shl (opX op) (opY op))
  | _ => .error .unrecognized8

/-- Family 9 requires `n = 0` (R85). -/
def decode9 (op : Word) : Except Reject Instr :=
  if opN op = 0x0#4 then .ok (.sneReg (opX op) (opY op)) else .error .unrecognized9

/-- Family E is decoded on the whole low byte (R85). -/
def decodeE (op : Word) : Except Reject Instr :=
  match opKK op with
  | 0x9E#8 => .ok (.skp (opX op))
  | 0xA1#8 => .ok (.sknp (opX op))
  | _ => .error .unrecognizedE

/-- Family F is decoded on the whole low byte (R85). -/
def decodeF (op : Word) : Except Reject Instr :=
  match opKK op with
  | 0x07#8 => .ok (.ldVxDT (opX op))
  | 0x0A#8 => .ok (.ldVxK (opX op))
  | 0x15#8 => .ok (.ldDT (opX op))
  | 0x18#8 => .ok (.ldST (opX op))
  | 0x1E#8 => .ok (.addI (opX op))
  | 0x29#8 => .ok (.ldF (opX op))
  | 0x33#8 => .ok (.ldB (opX op))
  | 0x55#8 => .ok (.ldMemVx (opX op))
  | 0x65#8 => .ok (.ldVxMem (opX op))
  | _ => .error .unrecognizedF

/-- The instruction a word selects, strictly (R84, R85), or the name of its unrecognized space (R86). Total, and
a function of the word alone (R87). -/
def decode (op : Word) : Except Reject Instr :=
  match opFam op with
  | 0x0#4 => decode0 op
  | 0x1#4 => .ok (.jp (opNNN op))
  | 0x2#4 => .ok (.call (opNNN op))
  | 0x3#4 => .ok (.seByte (opX op) (opKK op))
  | 0x4#4 => .ok (.sneByte (opX op) (opKK op))
  | 0x5#4 => decode5 op
  | 0x6#4 => .ok (.ldByte (opX op) (opKK op))
  | 0x7#4 => .ok (.addByte (opX op) (opKK op))
  | 0x8#4 => decode8 op
  | 0x9#4 => decode9 op
  | 0xA#4 => .ok (.ldI (opNNN op))
  | 0xB#4 => .ok (.jpV0 (opNNN op))
  | 0xC#4 => .ok (.rnd (opX op) (opKK op))
  | 0xD#4 => .ok (.drw (opX op) (opY op) (opN op).toNat)
  | 0xE#4 => decodeE op
  | _ => decodeF op  -- 0xF, the one value left

/-- Two bytes joined big-endian: the byte at the lower address is the high one (R80, 20_memory.md R56). -/
def joinBytes (hi lo : Byte) : Word := hi ++ lo

/-- The instruction at the head of a list of bytes, and the bytes after it (R80: always two). -/
def decodeBytes : List Byte → Except Reject (Instr × List Byte)
  | hi :: lo :: rest =>
    match decode (joinBytes hi lo) with
    | .ok i => .ok (i, rest)
    | .error e => .error e
  | [_] => .error .tooFewBytes
  | [] => .error .tooFewBytes

/-- The high and the low byte of an instruction word, as memory holds them (R80, R56). -/
def wordBytes (op : Word) : List Byte := [op.extractLsb' 8 8, op.extractLsb' 0 8]

/-- The word the host's table numbers as `w` with `nbits` bits given, every bit above them 0. -/
def tableWord (nbits w : Nat) : Word := BitVec.ofNat 16 (w % 2 ^ nbits)

/-- What this decoder reads from the row's word laid out as memory holds it (for the host). -/
def decodeTableWord (nbits w : Nat) : Option Instr :=
  match decodeBytes (wordBytes (tableWord nbits w)) with
  | .ok (i, _) => some i
  | .error _ => none

/-! ## The opcode map as data (R84) -/

/-- One row of R84: `w &&& mask = value` selects it. -/
structure OpRow where
  mask : Word
  value : Word
deriving DecidableEq, Repr

/-- A word selects a row (R84). -/
def OpRow.selects (r : OpRow) (w : Word) : Bool := w &&& r.mask == r.value

/-- The row of R84 an instruction belongs to, its mask and match as the table writes them. -/
def Instr.row : Instr → OpRow
  | .cls => ⟨0xFFFF, 0x00E0⟩
  | .ret => ⟨0xFFFF, 0x00EE⟩
  | .jp _ => ⟨0xF000, 0x1000⟩
  | .call _ => ⟨0xF000, 0x2000⟩
  | .seByte _ _ => ⟨0xF000, 0x3000⟩
  | .sneByte _ _ => ⟨0xF000, 0x4000⟩
  | .seReg _ _ => ⟨0xF00F, 0x5000⟩
  | .sneReg _ _ => ⟨0xF00F, 0x9000⟩
  | .ldByte _ _ => ⟨0xF000, 0x6000⟩
  | .addByte _ _ => ⟨0xF000, 0x7000⟩
  | .ldReg _ _ => ⟨0xF00F, 0x8000⟩
  | .orReg _ _ => ⟨0xF00F, 0x8001⟩
  | .andReg _ _ => ⟨0xF00F, 0x8002⟩
  | .xorReg _ _ => ⟨0xF00F, 0x8003⟩
  | .addReg _ _ => ⟨0xF00F, 0x8004⟩
  | .subReg _ _ => ⟨0xF00F, 0x8005⟩
  | .shr _ _ => ⟨0xF00F, 0x8006⟩
  | .subnReg _ _ => ⟨0xF00F, 0x8007⟩
  | .shl _ _ => ⟨0xF00F, 0x800E⟩
  | .skp _ => ⟨0xF0FF, 0xE09E⟩
  | .sknp _ => ⟨0xF0FF, 0xE0A1⟩
  | .ldI _ => ⟨0xF000, 0xA000⟩
  | .jpV0 _ => ⟨0xF000, 0xB000⟩
  | .rnd _ _ => ⟨0xF000, 0xC000⟩
  | .drw _ _ _ => ⟨0xF000, 0xD000⟩
  | .ldVxDT _ => ⟨0xF0FF, 0xF007⟩
  | .ldVxK _ => ⟨0xF0FF, 0xF00A⟩
  | .ldDT _ => ⟨0xF0FF, 0xF015⟩
  | .ldST _ => ⟨0xF0FF, 0xF018⟩
  | .addI _ => ⟨0xF0FF, 0xF01E⟩
  | .ldF _ => ⟨0xF0FF, 0xF029⟩
  | .ldB _ => ⟨0xF0FF, 0xF033⟩
  | .ldMemVx _ => ⟨0xF0FF, 0xF055⟩
  | .ldVxMem _ => ⟨0xF0FF, 0xF065⟩

/-- The 34 rows of R84, in its order. -/
def opcodeRows : List OpRow :=
  [.cls, .ret, .jp 0, .call 0, .seByte 0 0, .sneByte 0 0, .seReg 0 0, .sneReg 0 0, .ldByte 0 0, .addByte 0 0].map Instr.row
  ++ [.ldReg 0 0, .orReg 0 0, .andReg 0 0, .xorReg 0 0, .addReg 0 0, .subReg 0 0, .shr 0 0, .subnReg 0 0, .shl 0 0].map Instr.row
  ++ [.skp 0, .sknp 0, .ldI 0, .jpV0 0, .rnd 0 0, .drw 0 0 0].map Instr.row
  ++ [.ldVxDT 0, .ldVxK 0, .ldDT 0, .ldST 0, .addI 0, .ldF 0, .ldB 0, .ldMemVx 0, .ldVxMem 0].map Instr.row

/-! ## The encoder (R82, R83) -/

/-- The 4-bit field that selects a register (R83). -/
def nibbleOfReg (r : Reg) : BitVec 4 := BitVec.ofNat 4 r.val

/-- Format NNN, `f nnn` (R82). -/
def wordNNN (f : BitVec 4) (nnn : Word) : Word := f ++ nnn.setWidth 12

/-- Formats XKK and X, `f x kk` (R82). -/
def wordXKK (f : BitVec 4) (x : Reg) (kk : Byte) : Word := f ++ nibbleOfReg x ++ kk

/-- Formats XY and XYN, `f x y s` (R82). -/
def wordXYN (f : BitVec 4) (x y : Reg) (n : BitVec 4) : Word := f ++ nibbleOfReg x ++ nibbleOfReg y ++ n

/-- The word of an instruction, from R84's patterns. -/
def encode : Instr → Word
  | .cls => 0x00E0
  | .ret => 0x00EE
  | .jp nnn => wordNNN 0x1 nnn
  | .call nnn => wordNNN 0x2 nnn
  | .seByte x kk => wordXKK 0x3 x kk
  | .sneByte x kk => wordXKK 0x4 x kk
  | .seReg x y => wordXYN 0x5 x y 0x0
  | .sneReg x y => wordXYN 0x9 x y 0x0
  | .ldByte x kk => wordXKK 0x6 x kk
  | .addByte x kk => wordXKK 0x7 x kk
  | .ldReg x y => wordXYN 0x8 x y 0x0
  | .orReg x y => wordXYN 0x8 x y 0x1
  | .andReg x y => wordXYN 0x8 x y 0x2
  | .xorReg x y => wordXYN 0x8 x y 0x3
  | .addReg x y => wordXYN 0x8 x y 0x4
  | .subReg x y => wordXYN 0x8 x y 0x5
  | .shr x y => wordXYN 0x8 x y 0x6
  | .subnReg x y => wordXYN 0x8 x y 0x7
  | .shl x y => wordXYN 0x8 x y 0xE
  | .skp x => wordXKK 0xE x 0x9E
  | .sknp x => wordXKK 0xE x 0xA1
  | .ldI nnn => wordNNN 0xA nnn
  | .jpV0 nnn => wordNNN 0xB nnn
  | .rnd x kk => wordXKK 0xC x kk
  | .drw x y n => wordXYN 0xD x y (BitVec.ofNat 4 n)
  | .ldVxDT x => wordXKK 0xF x 0x07
  | .ldVxK x => wordXKK 0xF x 0x0A
  | .ldDT x => wordXKK 0xF x 0x15
  | .ldST x => wordXKK 0xF x 0x18
  | .addI x => wordXKK 0xF x 0x1E
  | .ldF x => wordXKK 0xF x 0x29
  | .ldB x => wordXKK 0xF x 0x33
  | .ldMemVx x => wordXKK 0xF x 0x55
  | .ldVxMem x => wordXKK 0xF x 0x65

end Sys2Proof
end

