-- ==== Sys2Proof/Machine/State.lean ====
section
/-! DEFINITION. What the machine is between cycles (10_state.md R20), the reasons a step can stop, and the state after
reset (70_reset_and_hazards.md R240). -/

namespace Sys2Proof.Machine

/-- The three fatal conditions (60_exceptions.md R210). A cycle that raises one is a NEXT state, in which the latch
`fault` holds it (R217). As an outcome of `step` the same kind says that a `Cycle` was asked for while the core is
halted: nothing changes and the core answers `Fault(fault)` again (R218). -/
inductive Fault where
  /-- ADDRESSING: raised at fetch, by a data access, or at the `pc` range check (R211); answered by `step` while the
  latch holds it. Safe: the spec's own stop. -/
  | addressing
  /-- STACK_OVERFLOW: raised by CALL when `sp = 16` (R212); answered by `step` while the latch holds it. Safe. -/
  | stackOverflow
  /-- STACK_UNDERFLOW: raised by RET when `sp = 0` (R213); answered by `step` while the latch holds it. Safe. -/
  | stackUnderflow
deriving DecidableEq, Repr

/-- Refusals. No instruction of this machine is refused. -/
inductive Refusal where
  /-- An instruction that has no meaning yet, by its mnemonic. Raised by `exec`'s arms alone, and by none of them
  now; safe. -/
  | notModelled (mnemonic : String)
deriving DecidableEq, Repr

/-- The control-flow result of an instruction (40_cycle.md R103). A jump's target is an unbounded number. -/
inductive Ctl where
  | advance2
  | advance4
  | jump (a : Nat)
  | noAdvance
deriving DecidableEq, Repr

/-- The inputs of one cycle (10_state.md R33): which of the 16 keys are held, and the random byte. -/
structure CycleInput where
  keys : Vector Bool 16
  rand : Byte
deriving DecidableEq, Repr

/-- What the host can ask of the core between cycles (00_scope.md R5). -/
inductive HostRequest where
  /-- `Reset` (R240) -/
  | reset
  /-- `Load(bytes)` (20_memory.md R63) -/
  | load (bytes : List Byte)
  /-- `Cycle(keys, rand)` (R100) -/
  | cycle (inputs : CycleInput)
deriving DecidableEq, Repr

/-- What a cycle returns to the host (R100, R106): `Ok(redraw, tone)` or `Fault(kind)`. -/
inductive CycleResult where
  | ok (redraw tone : Bool)
  | fault (kind : Fault)
deriving DecidableEq, Repr

/-- `fb[x][y]`: 64 columns of 32 one-bit pixels (10_state.md R28, 44_display.md R183). -/
abbrev Framebuffer := Vector (Vector Bool 32) 64

/-- Memory as the bytes that differ from what reset leaves (Machine/Memory.lean says what an unlisted address reads
as, and gives the canonical form). -/
abbrev Memory := List Host.Cell

/-- The state between cycles: the ten elements of R20, then the model's own three fields (notes/assumptions/1.md,
2.md and 4.md). -/
structure State where
  /-- general registers `V0` to `VF` (R21, R22) -/
  V : Vector Byte 16
  /-- index register (R23) -/
  I : Word
  /-- address of the instruction the next cycle fetches (R24) -/
  pc : Word
  /-- stack entries in use, 0 to 16 (R25) -/
  sp : Fin 17
  /-- return addresses (R25) -/
  stack : Vector Word 16
  /-- delay timer (R26) -/
  DT : Byte
  /-- sound timer (R27) -/
  ST : Byte
  /-- framebuffer (R28) -/
  fb : Framebuffer
  /-- memory (R29) -/
  mem : Memory
  /-- fault latch, `none` for NONE (R31) -/
  fault : Option Fault
  /-- MODEL's own: what the last request returned; `none` where it returns nothing (R5) -/
  result : Option CycleResult
  /-- MODEL's own: the host's pending requests, oldest first -/
  requests : List HostRequest
  /-- MODEL's own: how many cycles have been asked for; numbers the free inputs -/
  cycles : Nat
deriving DecidableEq, Repr

/-- What the execute step of an instruction leaves (R102, R103, R106): the state with `pc` and timers not yet
updated, the control-flow result, and the `redraw` output. -/
structure Effect where
  state : State
  ctl : Ctl := .advance2
  redraw : Bool := false
deriving DecidableEq, Repr

/-- The framebuffer with every pixel 0 (R28). -/
def Framebuffer.blank : Framebuffer := Vector.replicate 64 (Vector.replicate 32 false)

/-- The state right after `Reset` (70_reset_and_hazards.md R240). Memory lists nothing: an unlisted address reads as
reset leaves it. The last three fields are the model's own (notes/assumptions/1.md, 2.md, 4.md, DESIGN CHOICE). -/
def State.reset : State where
  V := Vector.replicate 16 0x00
  I := 0x0000
  pc := 0x0200
  sp := 0
  stack := Vector.replicate 16 0x0000
  DT := 0x00
  ST := 0x00
  fb := Framebuffer.blank
  mem := []
  fault := none
  result := none
  requests := []
  cycles := 0

end Sys2Proof.Machine
end

