-- ==== Sys2Proof/Machine/Memory.lean ====
section
/-! DEFINITION. Memory (20_memory.md): what reset leaves in it, reading and writing a byte, the canonical form, and the
range-checked accesses that every instruction and the fetch use. -/

namespace Sys2Proof.Machine

/-! ## What reset leaves (R52, R240) -/

/-- The default `FONT`: 16 glyphs of 5 bytes, for the digits 0 to F in order (R52; the bytes are general knowledge,
not in the source: notes/assumptions/6.md, PRESUMED). -/
def fontGlyphs : List (List Byte) :=
  [[0xF0, 0x90, 0x90, 0x90, 0xF0], [0x20, 0x60, 0x20, 0x20, 0x70],
   [0xF0, 0x10, 0xF0, 0x80, 0xF0], [0xF0, 0x10, 0xF0, 0x10, 0xF0]]
  ++ [[0x90, 0x90, 0xF0, 0x10, 0x10], [0xF0, 0x80, 0xF0, 0x10, 0xF0],
      [0xF0, 0x80, 0xF0, 0x90, 0xF0], [0xF0, 0x10, 0x20, 0x40, 0x40]]
  ++ [[0xF0, 0x90, 0xF0, 0x90, 0xF0], [0xF0, 0x90, 0xF0, 0x10, 0xF0],
      [0xF0, 0x90, 0xF0, 0x90, 0x90], [0xE0, 0x90, 0xE0, 0x90, 0xE0]]
  ++ [[0xF0, 0x80, 0x80, 0x80, 0xF0], [0xE0, 0x90, 0x90, 0x90, 0xE0],
      [0xF0, 0x80, 0xF0, 0x80, 0xF0], [0xF0, 0x80, 0xF0, 0x80, 0x80]]

/-- The 80 bytes `FONT[0]` to `FONT[79]` (R3, R52). -/
def fontBytes : List Byte := fontGlyphs.flatten

/-- What an address that memory does not list reads as: the reset contents, `FONT` at 0x000 to 0x04F and zero
elsewhere (R240; the zeros are the spec's decision D12, notes/assumptions/5.md). -/
def resetByte (a : Nat) : Byte := fontBytes.getD a 0x00

/-! ## One byte, no range check -/

/-- The byte at an address. -/
def Memory.read : Memory → Nat → Byte
  | [], a => resetByte a
  | (b, w) :: rest, a => if b = a then w else Memory.read rest a

/-- Memory with one byte changed; a byte equal to what reset leaves is not listed, so the form stays canonical. -/
def Memory.write : Memory → Nat → Byte → Memory
  | [], a, v => if v = resetByte a then [] else [(a, v)]
  | (b, w) :: rest, a, v =>
    if b < a then (b, w) :: Memory.write rest a v
    else if b = a then (if v = resetByte a then rest else (a, v) :: rest)
    else (if v = resetByte a then (b, w) :: rest else (a, v) :: (b, w) :: rest)

/-- Canonical from address `lo` on: addresses strictly rising and inside memory, no entry equal to what an unlisted
address reads as. -/
def Memory.wfFrom : Nat → Memory → Bool
  | _, [] => true
  | lo, (a, v) :: rest =>
    decide (lo ≤ a) && decide (a < Config.memSize) && decide (v ≠ resetByte a) && Memory.wfFrom (a + 1) rest

/-- The canonical form of memory: equal memories are equal lists. -/
def Memory.wf (m : Memory) : Bool := Memory.wfFrom 0 m

/-! ## Consecutive bytes (R55: ascending addresses) -/

/-- The bytes at `base`, `base + 1`, …, `count` of them. -/
def Memory.readSpan (m : Memory) : Nat → Nat → List Byte
  | _, 0 => []
  | base, count + 1 => m.read base :: m.readSpan (base + 1) count

/-- Memory with the bytes of a list stored at `base`, `base + 1`, … in that order. -/
def Memory.writeSpan (m : Memory) : Nat → List Byte → Memory
  | _, [] => m
  | base, v :: vs => (m.write base v).writeSpan (base + 1) vs

/-! ## Range-checked accesses (R53, R54, R55, R166) -/

/-- Every address of an access is in 0x000 to 0xFFF: `base + count − 1 <= 0xFFF` whenever `count >= 1` (R166). The sum
is on unbounded numbers, so nothing wraps (R53). -/
def spanInMemory (base count : Nat) : Bool := decide (count = 0 ∨ base + count - 1 ≤ 0xFFF)

/-- `MemRead` of `count` bytes from `base`: AddressingFault when any of them is outside memory (R53, R55). -/
def memReadBytes (m : Memory) (base count : Nat) : Except Fault (List Byte) :=
  if spanInMemory base count then .ok (m.readSpan base count) else .error .addressing

/-- `MemWrite` of bytes from `base` on: AddressingFault, and none written, when any of them is outside memory
(R54, R55). -/
def memWriteBytes (m : Memory) (base : Nat) (bytes : List Byte) : Except Fault Memory :=
  if spanInMemory base bytes.length then .ok (m.writeSpan base bytes) else .error .addressing

/-- Memory after `Load(bytes)`: the font at 0x000, then at most 3584 bytes at 0x200 (R63). -/
def Memory.load (m : Memory) (bytes : List Byte) : Memory :=
  (m.writeSpan Config.fontBase fontBytes).writeSpan Config.progBase (bytes.take Config.maxProg)

end Sys2Proof.Machine
end

