-- ==== Sys2Proof/Machine/Ops.lean ====
section
/-! DEFINITION. The named operations shared by the instructions: registers, call stack, framebuffer pixels, inputs, the
timer tick, taking a fault, the end of a cycle, the fetch (10_state.md, 40_cycle.md, 60_exceptions.md). -/

namespace Sys2Proof.Machine

/-! ## General registers (R21) -/

/-- `V[r]`. -/
def State.readV (s : State) (r : Reg) : Byte := s.V[r]

/-- `V[r] <- v`. No register is hardwired (R21). -/
def State.writeV (s : State) (r : Reg) (v : Byte) : State := { s with V := s.V.set r v }

/-- `V0` to `Vx`, `x + 1` registers in order (R164, R165). -/
def State.firstRegs (s : State) (x : Reg) : List Byte := s.V.toList.take (x.val + 1)

/-- The registers when `V0` to `Vx` have taken the bytes of memory at `base`, `base + 1`, …; the others keep their
value (R165). -/
def loadedRegs (m : Memory) (V : Vector Byte 16) (x : Reg) (base : Nat) : Vector Byte 16 :=
  Vector.ofFn fun r => if r.val ≤ x.val then m.read (base + r.val) else V[r]

/-- The registers take those values (R165). -/
def State.loadRegs (s : State) (x : Reg) (base : Nat) : State :=
  { s with V := loadedRegs s.mem s.V x base }

/-! ## Call stack (R25) -/

/-- CALL stores at `stack[sp]` and then increments `sp`; with 16 entries in use, StackOverflow (R122, R212). -/
def State.push (s : State) (ret : Word) : Except Fault State :=
  if h : s.sp.val < 16 then
    .ok { s with stack := s.stack.set s.sp.val ret, sp := ⟨s.sp.val + 1, by omega⟩ }
  else .error .stackOverflow

/-- RET decrements `sp` and then reads `stack[sp]`; with none in use, StackUnderflow (R120, R213). The entry keeps
its content (R25). -/
def State.pop (s : State) : Except Fault (Word × State) :=
  if h : s.sp.val = 0 then .error .stackUnderflow
  else .ok (s.stack[s.sp.val - 1]'(by omega), { s with sp := ⟨s.sp.val - 1, by omega⟩ })

/-! ## Pixels (R28) -/

/-- `fb[x][y]`. -/
def Framebuffer.pixel (fb : Framebuffer) (x : Fin 64) (y : Fin 32) : Bool := (fb[x])[y]

/-- `fb[x][y] <- b`. -/
def Framebuffer.setPixel (fb : Framebuffer) (x : Fin 64) (y : Fin 32) (b : Bool) : Framebuffer :=
  fb.set x ((fb[x]).set y b)

/-! ## Inputs of the cycle (R33) -/

/-- `keys` and `rand` of the cycle being run: those of the host's request, or free values where no `Cycle` request is
pending (notes/assumptions/1.md). -/
def State.input (s : State) : CycleInput :=
  match s.requests with
  | .cycle inputs :: _ => inputs
  | .reset :: _ => ⟨Config.freeKeys s.cycles, Config.freeRand s.cycles⟩
  | .load _ :: _ => ⟨Config.freeKeys s.cycles, Config.freeRand s.cycles⟩
  | [] => ⟨Config.freeKeys s.cycles, Config.freeRand s.cycles⟩

/-! ## Program counter and timers (R103, R104, R105) -/

/-- The candidate `pc_next` of a control-flow result, an unbounded number (R103). -/
def Ctl.target (pc : Word) : Ctl → Nat
  | .advance2 => pc.toNat + 2
  | .advance4 => pc.toNat + 4
  | .jump a => a
  | .noAdvance => pc.toNat

/-- The legal range of `pc`: 0x200 to 0xFFF (R24, R104). -/
def pcLegal (a : Nat) : Bool := decide (0x200 ≤ a ∧ a ≤ 0xFFF)

/-- One tick of a timer: down by 1, and 0 stays 0 (R105). -/
def tick (t : Byte) : Byte := if t = 0 then 0 else t - 1

/-- `tone`: `ST > 0`, of the value after the tick (R106). -/
def toneOf (st : Byte) : Bool := decide (st.toNat > 0)

/-! ## Taking a fault (R217) and the end of a cycle (R100) -/

/-- What `raise K` leaves, from the state before the cycle: every element as it was, the latch and the cycle's answer
`K` (R217). The request is served and the cycle is counted (the model's own fields). -/
def State.takeFault (s : State) (k : Fault) : State :=
  { s with fault := some k, result := some (.fault k), requests := s.requests.tail, cycles := s.cycles + 1 }

/-- The end of a cycle whose execute step raised nothing: the range check and write of `pc` (R104), the tick (R105),
the outputs (R106). -/
def State.retire (s : State) (e : Effect) : State :=
  if pcLegal (e.ctl.target s.pc) then
    { e.state with
        pc := BitVec.ofNat 16 (e.ctl.target s.pc)
        DT := tick e.state.DT
        ST := tick e.state.ST
        result := some (.ok e.redraw (toneOf (tick e.state.ST)))
        requests := s.requests.tail
        cycles := s.cycles + 1 }
  else s.takeFault .addressing

/-- The state after the cycle, from the state before it and the execute step's outcome: a fault of the execute step
comes before one of the range check (R107, R216). -/
def State.endCycle (s : State) : Except Fault Effect → State
  | .ok e => s.retire e
  | .error k => s.takeFault k

/-- How every meaning ends. A cycle always has a next state (R87, R217). -/
def complete (s : State) (r : Except Fault Effect) : Host.Outcome State Fault Refusal := .next (s.endCycle r)

/-! ## Fetch (R101) -/

/-- The word at `pc`, joined big-endian; AddressingFault when a byte of it is outside memory (R101, R56). -/
def State.fetch (s : State) : Except Fault Word :=
  if spanInMemory s.pc.toNat 2 then
    .ok (joinBytes (s.mem.read s.pc.toNat) (s.mem.read (s.pc.toNat + 1)))
  else .error .addressing

end Sys2Proof.Machine
end

