-- ==== Sys2Proof/Machine/Operands.lean ====
section
/-! DEFINITION. What the operand fields and registers stand for in an instruction: jump targets, the data address, glyphs,
decimal digits, keys, sprite bits and pixel coordinates. -/

namespace Sys2Proof.Machine

/-- The address of the first byte of a data access: `I`, as an unbounded number (43_index_memory.md R166). -/
def State.dataBase (s : State) : Nat := s.I.toNat

/-- The target of JP V0: `nnn + V0`, not reduced (R128). -/
def State.offsetTarget (s : State) (nnn : Word) : Nat := nnn.toNat + (s.readV 0).toNat

/-- `FONT_BASE + v * 5`, with no mask on `v` (R162). -/
def glyphAddress (v : Byte) : Word := BitVec.ofNat 16 (Config.fontBase + v.toNat * Config.glyphSize)

/-- `u16(I + v)`, `v` zero-extended (R161). -/
def addToIndex (i : Word) (v : Byte) : Word := BitVec.ofNat 16 (i.toNat + v.toNat)

/-- Hundreds, tens and ones of a byte (R163). -/
def decimalDigits (v : Byte) : List Byte :=
  [BitVec.ofNat 8 (v.toNat / 100), BitVec.ofNat 8 (v.toNat / 10 % 10), BitVec.ofNat 8 (v.toNat % 10)]

/-- `k = v mod 16` (R197). -/
def keyIndex (v : Byte) : Fin 16 := ⟨v.toNat % 16, by omega⟩

/-- `keys[v mod 16]` of this cycle (R193, R194, R197). -/
def State.keyHeld (s : State) (v : Byte) : Bool := s.input.keys[keyIndex v]

/-- The smallest `k` with `keys[k]` true, if any key is held (R195). -/
def firstKey (keys : Vector Bool 16) : Option (Fin 16) := (List.finRange 16).find? fun k => keys[k]

/-- Column `col` of a sprite byte, 0 to 7: bit 7 is column 0 (44_display.md R182). -/
def spriteBit (b : Byte) (col : Nat) : Bool := b.getLsbD (7 - col)

/-- `(vx + col) mod 64` (R181). -/
def pixelColumn (vx col : Nat) : Fin 64 := ⟨(vx + col) % 64, by omega⟩

/-- `(vy + row) mod 32` (R181). -/
def pixelRow (vy row : Nat) : Fin 32 := ⟨(vy + row) % 32, by omega⟩

end Sys2Proof.Machine
end

