-- ==== Sys2Proof/Machine/Flags.lean ====
section
/-! DEFINITION. Every computation of `VF` (10_state.md R22) and the order in which result and flag are written (42_alu.md
R152). -/

namespace Sys2Proof.Machine

/-- A flag as `VF` holds it: 0x00 or 0x01, never another value (R22). -/
def flagByte (b : Bool) : Byte := if b then 0x01 else 0x00

/-- Carry out of ADD: the 8-bit sum overflows (R146). -/
def carryOut (a b : Byte) : Bool := decide (a.toNat + b.toNat > 255)

/-- NOT-borrow of `a − b`: 1 when `a >= b` (R147, R149). -/
def noBorrow (a b : Byte) : Bool := decide (a.toNat ≥ b.toNat)

/-- The bit SHR shifts out (R148). -/
def lowBit (a : Byte) : Bool := a.getLsbD 0

/-- The bit SHL shifts out (R150). -/
def highBit (a : Byte) : Bool := a.getLsbD 7

/-- `V[x] <- result`, then `V[0xF] <- flag`: the second write wins when `x = 0xF` (R152). -/
def State.writeResultAndFlag (s : State) (x : Reg) (result : Byte) (flag : Bool) : State :=
  (s.writeV x result).writeV VF (flagByte flag)

end Sys2Proof.Machine
end

