-- ==== Sys2Proof/Machine/Alu.lean ====
section
/-! DEFINITION. Constants and the register ALU group (42_alu.md). Results wrap modulo 256 (R151). -/

namespace Sys2Proof.Machine

/-- An instruction that writes one register, without a flag (R140 to R145). -/
def resultOnly (s : State) (x : Reg) (result : Byte) : Host.Outcome State Fault Refusal :=
  complete s (.ok { state := s.writeV x result })

/-- An instruction that writes its result and then the flag (R152). -/
def resultAndFlag (s : State) (x : Reg) (result : Byte) (flag : Bool) : Host.Outcome State Fault Refusal :=
  complete s (.ok { state := s.writeResultAndFlag x result flag })

/-- LD Vx, kk (R140). -/
def execLdByte (x : Reg) (kk : Byte) (s : State) : Host.Outcome State Fault Refusal :=
  resultOnly s x kk

/-- ADD Vx, kk: no flag (R141). -/
def execAddByte (x : Reg) (kk : Byte) (s : State) : Host.Outcome State Fault Refusal :=
  resultOnly s x (s.readV x + kk)

/-- LD Vx, Vy (R142). -/
def execLdReg (x y : Reg) (s : State) : Host.Outcome State Fault Refusal :=
  resultOnly s x (s.readV y)

/-- OR Vx, Vy: no flag (R143). -/
def execOrReg (x y : Reg) (s : State) : Host.Outcome State Fault Refusal :=
  resultOnly s x (s.readV x ||| s.readV y)

/-- AND Vx, Vy: no flag (R144). -/
def execAndReg (x y : Reg) (s : State) : Host.Outcome State Fault Refusal :=
  resultOnly s x (s.readV x &&& s.readV y)

/-- XOR Vx, Vy: no flag (R145). -/
def execXorReg (x y : Reg) (s : State) : Host.Outcome State Fault Refusal :=
  resultOnly s x (s.readV x ^^^ s.readV y)

/-- ADD Vx, Vy, carry out in `VF` (R146). -/
def execAddReg (x y : Reg) (s : State) : Host.Outcome State Fault Refusal :=
  resultAndFlag s x (s.readV x + s.readV y) (carryOut (s.readV x) (s.readV y))

/-- SUB Vx, Vy, NOT-borrow in `VF` (R147). -/
def execSubReg (x y : Reg) (s : State) : Host.Outcome State Fault Refusal :=
  resultAndFlag s x (s.readV x - s.readV y) (noBorrow (s.readV x) (s.readV y))

/-- SHR Vx, bit 0 in `VF`; `y` is ignored (R148). -/
def execShr (x _y : Reg) (s : State) : Host.Outcome State Fault Refusal :=
  resultAndFlag s x (s.readV x >>> 1) (lowBit (s.readV x))

/-- SUBN Vx, Vy: `Vy − Vx`, NOT-borrow in `VF` (R149). -/
def execSubnReg (x y : Reg) (s : State) : Host.Outcome State Fault Refusal :=
  resultAndFlag s x (s.readV y - s.readV x) (noBorrow (s.readV y) (s.readV x))

/-- SHL Vx, bit 7 in `VF`; `y` is ignored (R150). -/
def execShl (x _y : Reg) (s : State) : Host.Outcome State Fault Refusal :=
  resultAndFlag s x (s.readV x <<< 1) (highBit (s.readV x))

end Sys2Proof.Machine
end

