-- ==== Sys2Proof/Machine/ControlFlow.lean ====
section
/-! DEFINITION. Control transfer (41_control_flow.md), and the unrecognized no-op (40_cycle.md R109). -/

namespace Sys2Proof.Machine

/-- The skip law: advance by 4 instead of 2 when the condition holds, and write nothing but `pc` (R127). -/
def skipIf (c : Bool) (s : State) : Effect := { state := s, ctl := if c then .advance4 else .advance2 }

/-- RET (R120). -/
def execRet (s : State) : Host.Outcome State Fault Refusal :=
  complete s (s.pop.map fun (ret, s') => { state := s', ctl := .jump ret.toNat })

/-- JP nnn (R121). -/
def execJp (nnn : Word) (s : State) : Host.Outcome State Fault Refusal :=
  complete s (.ok { state := s, ctl := .jump nnn.toNat })

/-- CALL nnn: the return address is the address of the CALL plus 2 (R122). -/
def execCall (nnn : Word) (s : State) : Host.Outcome State Fault Refusal :=
  complete s ((s.push (s.pc + 2)).map fun s' => { state := s', ctl := .jump nnn.toNat })

/-- SE Vx, kk (R123). -/
def execSeByte (x : Reg) (kk : Byte) (s : State) : Host.Outcome State Fault Refusal :=
  complete s (.ok (skipIf (s.readV x == kk) s))

/-- SNE Vx, kk (R124). -/
def execSneByte (x : Reg) (kk : Byte) (s : State) : Host.Outcome State Fault Refusal :=
  complete s (.ok (skipIf (s.readV x != kk) s))

/-- SE Vx, Vy (R125). -/
def execSeReg (x y : Reg) (s : State) : Host.Outcome State Fault Refusal :=
  complete s (.ok (skipIf (s.readV x == s.readV y) s))

/-- SNE Vx, Vy (R126). -/
def execSneReg (x y : Reg) (s : State) : Host.Outcome State Fault Refusal :=
  complete s (.ok (skipIf (s.readV x != s.readV y) s))

/-- JP V0, nnn (R128). -/
def execJpV0 (nnn : Word) (s : State) : Host.Outcome State Fault Refusal :=
  complete s (.ok { state := s, ctl := .jump (s.offsetTarget nnn) })

/-- An unrecognized word: no operands, no effect, advance by 2 (R109, R86). -/
def execUnrecognized (s : State) : Host.Outcome State Fault Refusal :=
  complete s (.ok { state := s })

end Sys2Proof.Machine
end

