-- ==== Sys2Proof/Machine/Display.lean ====
section
/-! DEFINITION. CLS, DRW and the sprite-draw engine (44_display.md). -/

namespace Sys2Proof.Machine

/-- What the sprite engine carries from bit to bit: the framebuffer and the collision so far (R181). -/
structure Drawing where
  fb : Framebuffer
  collision : Bool
deriving DecidableEq, Repr

/-- One sprite bit: a 1 flips its pixel, and collides when the pixel was 1; a 0 changes nothing (R181). -/
def drawBit (vx vy row : Nat) (b : Byte) (d : Drawing) (col : Nat) : Drawing :=
  if spriteBit b col then
    { fb := d.fb.setPixel (pixelColumn vx col) (pixelRow vy row) (!d.fb.pixel (pixelColumn vx col) (pixelRow vy row))
      collision := d.collision || d.fb.pixel (pixelColumn vx col) (pixelRow vy row) }
  else d

/-- One sprite byte: columns 0 to 7 (R181). -/
def drawRow (vx vy row : Nat) (b : Byte) (d : Drawing) : Drawing :=
  (List.range 8).foldl (drawBit vx vy row b) d

/-- The sprite bytes, from row `row` on (R181). -/
def drawRows (vx vy : Nat) : Nat → List Byte → Drawing → Drawing
  | _, [], d => d
  | row, b :: bs, d => drawRows vx vy (row + 1) bs (drawRow vx vy row b d)

/-- A whole sprite over a framebuffer, no collision yet (R181). -/
def drawSprite (vx vy : Nat) (bytes : List Byte) (fb : Framebuffer) : Drawing :=
  drawRows vx vy 0 bytes { fb := fb, collision := false }

/-- CLS (R180). -/
def execCls (s : State) : Host.Outcome State Fault Refusal :=
  complete s (.ok { state := { s with fb := Framebuffer.blank }, redraw := true })

/-- The state after a sprite is drawn at `(Vx, Vy)`; the coordinates are read before `VF` is written (R181). -/
def State.drawn (s : State) (x y : Reg) (bytes : List Byte) : State :=
  let d := drawSprite (s.readV x).toNat (s.readV y).toNat bytes s.fb
  { s with fb := d.fb }.writeV VF (flagByte d.collision)

/-- DRW Vx, Vy, n: the `n` bytes at `I`, none of them and no fault when `n = 0` (R181). -/
def execDrw (x y : Reg) (n : Nat) (s : State) : Host.Outcome State Fault Refusal :=
  complete s ((memReadBytes s.mem s.dataBase n).map fun bytes => { state := s.drawn x y bytes, redraw := true })

end Sys2Proof.Machine
end

