-- ==== Sys2Proof/Machine/IndexMemory.lean ====
section
/-! DEFINITION. The index register and the memory transfers (43_index_memory.md). `I` is not changed by an access (R166). -/

namespace Sys2Proof.Machine

/-- LD I, nnn (R160). -/
def execLdI (nnn : Word) (s : State) : Host.Outcome State Fault Refusal :=
  complete s (.ok { state := { s with I := nnn } })

/-- ADD I, Vx: wraps modulo 65536, no flag, no fault (R161). -/
def execAddI (x : Reg) (s : State) : Host.Outcome State Fault Refusal :=
  complete s (.ok { state := { s with I := addToIndex s.I (s.readV x) } })

/-- LD F, Vx (R162). -/
def execLdF (x : Reg) (s : State) : Host.Outcome State Fault Refusal :=
  complete s (.ok { state := { s with I := glyphAddress (s.readV x) } })

/-- Store bytes at `I`, `I + 1`, …: all of them, or AddressingFault and none (R163, R164, R166). -/
def storeAtIndex (s : State) (bytes : List Byte) : Except Fault Effect :=
  (memWriteBytes s.mem s.dataBase bytes).map fun m => { state := { s with mem := m } }

/-- LD B, Vx (R163). -/
def execLdB (x : Reg) (s : State) : Host.Outcome State Fault Refusal :=
  complete s (storeAtIndex s (decimalDigits (s.readV x)))

/-- LD [I], Vx: `V0` to `Vx` (R164). -/
def execLdMemVx (x : Reg) (s : State) : Host.Outcome State Fault Refusal :=
  complete s (storeAtIndex s (s.firstRegs x))

/-- LD Vx, [I]: `V0` to `Vx`, or AddressingFault and none (R165). -/
def execLdVxMem (x : Reg) (s : State) : Host.Outcome State Fault Refusal :=
  complete s (if spanInMemory s.dataBase (x.val + 1) then .ok { state := s.loadRegs x s.dataBase }
    else .error .addressing)

end Sys2Proof.Machine
end

