-- ==== Sys2Proof/Machine/TimersKeysRandom.lean ====
section
/-! DEFINITION. Timer, keypad and random instructions (45_timers_keys_random.md). -/

namespace Sys2Proof.Machine

/-- LD Vx, DT: the value before this cycle's tick (R190). -/
def execLdVxDT (x : Reg) (s : State) : Host.Outcome State Fault Refusal :=
  complete s (.ok { state := s.writeV x s.DT })

/-- LD DT, Vx; the tick of the same cycle follows (R191). -/
def execLdDT (x : Reg) (s : State) : Host.Outcome State Fault Refusal :=
  complete s (.ok { state := { s with DT := s.readV x } })

/-- LD ST, Vx; the tick of the same cycle follows (R192). -/
def execLdST (x : Reg) (s : State) : Host.Outcome State Fault Refusal :=
  complete s (.ok { state := { s with ST := s.readV x } })

/-- SKP Vx (R193). -/
def execSkp (x : Reg) (s : State) : Host.Outcome State Fault Refusal :=
  complete s (.ok (skipIf (s.keyHeld (s.readV x)) s))

/-- SKNP Vx (R194). -/
def execSknp (x : Reg) (s : State) : Host.Outcome State Fault Refusal :=
  complete s (.ok (skipIf (!s.keyHeld (s.readV x)) s))

/-- LD Vx, K: `Vx` takes the smallest key held, or `pc` stays where it is (R195). -/
def execLdVxK (x : Reg) (s : State) : Host.Outcome State Fault Refusal :=
  complete s (.ok (match firstKey s.input.keys with
    | some k => { state := s.writeV x (BitVec.ofNat 8 k.val) }
    | none => { state := s, ctl := .noAdvance }))

/-- RND Vx, kk: `rand & kk` (R196). -/
def execRnd (x : Reg) (kk : Byte) (s : State) : Host.Outcome State Fault Refusal :=
  complete s (.ok { state := s.writeV x (s.input.rand &&& kk) })

end Sys2Proof.Machine
end

