-- ==== Sys2Proof/Machine/HostOps.lean ====
section
/-! DEFINITION. What the host does to the core and reads from it between cycles (00_scope.md R5): `Reset`, `Load`, `FbRead`,
the latch's code, the two output pins. -/

namespace Sys2Proof.Machine

/-- `Reset`: every element of the core at its reset value (70_reset_and_hazards.md R240, R241). The model's own fields
keep the requests still pending and the count of cycles. -/
def State.hostReset (s : State) : State :=
  { State.reset with requests := s.requests.tail, cycles := s.cycles }

/-- `Load(bytes)`: memory written, nothing else of the core changed, the latch not cleared (20_memory.md R63,
60_exceptions.md R218). It returns nothing (R5). -/
def State.hostLoad (s : State) (bytes : List Byte) : State :=
  { s with mem := s.mem.load bytes, result := none, requests := s.requests.tail }

/-- `FbRead(x, y)` (20_memory.md R62). -/
def State.fbRead (s : State) (x : Fin 64) (y : Fin 32) : Bool := s.fb.pixel x y

/-- The fault codes 0 NONE, 1 ADDRESSING, 2 STACK_OVERFLOW, 3 STACK_UNDERFLOW (10_state.md R31). -/
def faultCode : Option Fault → BitVec 2
  | none => 0
  | some .addressing => 1
  | some .stackOverflow => 2
  | some .stackUnderflow => 3

/-- The `redraw` pin: 0 on a faulting cycle, while halted, and where no cycle has answered (40_cycle.md R106). -/
def State.redrawPin (s : State) : Bool :=
  match s.result with
  | some (.ok redraw _) => redraw
  | some (.fault _) => false
  | none => false

/-- The `tone` pin, likewise (R106). -/
def State.tonePin (s : State) : Bool :=
  match s.result with
  | some (.ok _ tone) => tone
  | some (.fault _) => false
  | none => false

/-- The pending requests from the first `Cycle` on. -/
def fromFirstCycle : List HostRequest → List HostRequest
  | [] => []
  | .cycle inputs :: rest => .cycle inputs :: rest
  | .reset :: rest => fromFirstCycle rest
  | .load _ :: rest => fromFirstCycle rest

/-- The state with a word stored at `pc`, the latch clear and a cycle next, so that the next step runs that word. At
`pc = 0xFFF` and beyond no word can stand (R101), and the state is as it was. -/
def State.placeWord (s : State) (op : Word) : State :=
  match memWriteBytes s.mem s.pc.toNat (wordBytes op) with
  | .ok m => { s with mem := m, fault := none, requests := fromFirstCycle s.requests }
  | .error _ => s

end Sys2Proof.Machine
end

