-- ==== Sys2Proof/Machine/Step.lean ====
section
/-! DEFINITION. One step of the machine: the host's next request served (00_scope.md R5, 40_cycle.md R100). -/

namespace Sys2Proof.Machine

/-- `Cycle(keys, rand)` (R100): halted, it answers the latched fault and changes nothing (R218); otherwise fetch,
decode, and run the instruction or the unrecognized no-op. -/
def State.runCycle (s : State) : Host.Outcome State Fault Refusal :=
  match s.fault with
  | some k => .fault k
  | none =>
    match s.fetch with
    | .error k => .next (s.takeFault k)
    | .ok op =>
      match decode op with
      | .ok i => exec i s
      | .error _ => execUnrecognized s

/-- The host's oldest pending request; with none pending, a cycle whose inputs are free values
(notes/assumptions/2.md). -/
def step (s : State) : Host.Outcome State Fault Refusal :=
  match s.requests with
  | .reset :: _ => .next s.hostReset
  | .load bytes :: _ => .next (s.hostLoad bytes)
  | .cycle _ :: _ => s.runCycle
  | [] => s.runCycle

/-- The state whose next step runs the word that the opcode table numbers as `w`, stored at `pc` big-endian (R56;
notes/assumptions/20.md). -/
def State.withFetchWord (s : State) (nbits w : Nat) : State := s.placeWord (tableWord nbits w)

end Sys2Proof.Machine
end

