-- ==== Sys2Proof/Safety.lean ====
section
/-! DEFINITION. What counts as a safe state and run, the invariant of the machine, and the terms in which claims about steps
are stated. -/

namespace Sys2Proof.Machine

/-- No fault has been taken: "a run that reaches [a faulted state] has gone wrong" (60_exceptions.md R217). -/
def State.Safe (s : State) : Prop := s.fault = none

/-- The host's next request is a `Cycle` (pending, or taken for granted when nothing is pending). -/
def State.CycleNext (s : State) : Prop := s.requests = [] ∨ ∃ inputs rest, s.requests = .cycle inputs :: rest

/-- The next step runs instruction `i`: not halted, a cycle is next, and the word at `pc` decodes to `i`. -/
def State.Runs (s : State) (i : Instr) : Prop :=
  s.fault = none ∧ s.CycleNext ∧ ∃ op, s.fetch = .ok op ∧ decode op = .ok i

/-- `n` steps from `s` to `t`, each taken from a state of which `ok` holds. -/
def RunsThrough (ok : State → Prop) : Nat → State → State → Prop
  | 0, s, t => s = t
  | n + 1, s, t => ok s ∧ ∃ u, step s = .next u ∧ RunsThrough ok n u t

/-- `n` steps, all of them safe, and a safe state at the end. -/
def SafeRun (n : Nat) (s t : State) : Prop := RunsThrough State.Safe n s t ∧ t.Safe

/-- The invariant: what the spec says of every state between cycles. -/
structure State.Inv (s : State) : Prop where
  /-- memory is in its canonical form, inside 0x000 to 0xFFF (R29, R50) -/
  memCanonical : s.mem.wf = true
  /-- `pc` is in 0x200 to 0xFFF (R24) -/
  pcLow : 0x200 ≤ s.pc.toNat
  pcHigh : s.pc.toNat ≤ 0xFFF
  /-- no stack entry exceeds 0x1000, "the largest value a CALL can store" (R25) -/
  returnHigh : ∀ k : Fin 16, (s.stack[k]).toNat ≤ 0x1000
  /-- a live return address is the address after a CALL (R25) -/
  returnLow : ∀ k : Fin 16, k.val < s.sp.val → 0x202 ≤ (s.stack[k]).toNat
  /-- the core answered a fault only if the latch holds it (R217) -/
  faultLatched : ∀ k, s.result = some (.fault k) → s.fault = some k
  /-- after a cycle that answered Ok the latch is clear and `tone` is `ST > 0` (R106) -/
  okClear : ∀ redraw tone, s.result = some (.ok redraw tone) → s.fault = none ∧ tone = toneOf s.ST

end Sys2Proof.Machine
end

