-- ==== Sys2Proof/Certificates/Slice0/Obligations.lean ====
section
/-! DEFINITION. The statements for the provers, each `def Obligations.<Name> : Prop` (OBLIGATIONS.json lists them). They are
written in the spec's terms: unbounded numbers, single registers, bytes and pixels. -/

namespace Sys2Proof.Spec

open Sys2Proof.Machine

/-- 0x200 to 0xFFF, the range of `pc` (R24, R104). -/
abbrev LegalPc (a : Nat) : Prop := 0x200 ≤ a ∧ a ≤ 0xFFF

/-- What every cycle that raises no fault does besides its execute step: `pc` takes the new value (R104), the latch is
untouched, and the answer is `Ok(redraw, ST > 0)` (R106). -/
structure Retired (s t : State) (pcNext : Nat) (redraw : Bool) : Prop where
  pc : t.pc.toNat = pcNext
  fault : t.fault = s.fault
  result : t.result = some (.ok redraw (decide (t.ST.toNat > 0)))

/-- Both timers one lower, 0 staying 0 (R105). -/
abbrev Ticked (s t : State) : Prop := t.DT.toNat = s.DT.toNat - 1 ∧ t.ST.toNat = s.ST.toNat - 1

abbrev SameV (s t : State) : Prop := ∀ r : Reg, t.V[r] = s.V[r]
abbrev SameI (s t : State) : Prop := t.I = s.I
abbrev SameStack (s t : State) : Prop := t.sp = s.sp ∧ ∀ k : Fin 16, t.stack[k] = s.stack[k]
abbrev SameTimers (s t : State) : Prop := t.DT = s.DT ∧ t.ST = s.ST
abbrev SameFb (s t : State) : Prop := ∀ (px : Fin 64) (py : Fin 32), t.fb.pixel px py = s.fb.pixel px py
abbrev SameMem (s t : State) : Prop := ∀ a, t.mem.read a = s.mem.read a

/-- A cycle that retires and changes nothing but `pc`, the timers and general registers. -/
structure OnlyRegisters (s t : State) (pcNext : Nat) : Prop where
  retired : Retired s t pcNext false
  ticked : Ticked s t
  index : SameI s t
  stack : SameStack s t
  fb : SameFb s t
  mem : SameMem s t

/-- A cycle that retires and changes nothing but `pc` and the timers. -/
structure OnlyPc (s t : State) (pcNext : Nat) : Prop where
  rest : OnlyRegisters s t pcNext
  regs : SameV s t

/-- The instruction raises a fault: the latch and the cycle's answer say which. -/
def Raises (i : Instr) (s : State) (k : Fault) : Prop :=
  ∃ t, exec i s = .next t ∧ t.fault = some k ∧ t.result = some (.fault k)

/-- Control goes to `a` and nothing else changes but the timers; where `a` is out of range the cycle raises
AddressingFault (R104). -/
abbrev GoesTo (i : Instr) (s : State) (a : Nat) : Prop :=
  (LegalPc a → ∃ t, exec i s = .next t ∧ OnlyPc s t a) ∧ (¬ LegalPc a → Raises i s .addressing)

/-- Everything the spec gives the machine is as it was, but the latch and the answer hold the fault (R217). -/
structure Faulted (s t : State) (k : Fault) : Prop where
  fault : t.fault = some k
  result : t.result = some (.fault k)
  pc : t.pc = s.pc
  regs : SameV s t
  index : SameI s t
  stack : SameStack s t
  timers : SameTimers s t
  fb : SameFb s t
  mem : SameMem s t

/-- The execute step raises a stack fault (R212, R213). -/
def stackFault (s : State) : Instr → Prop
  | .call _ => s.sp.val = 16
  | .ret => s.sp.val = 0
  | .cls | .jp _ | .seByte _ _ | .sneByte _ _ | .seReg _ _ | .sneReg _ _ | .ldByte _ _ | .addByte _ _
    | .ldReg _ _ | .orReg _ _ | .andReg _ _ | .xorReg _ _ | .addReg _ _ | .subReg _ _ | .shr _ _ | .subnReg _ _
    | .shl _ _ | .skp _ | .sknp _ | .ldI _ | .jpV0 _ | .rnd _ _ | .drw _ _ _ | .ldVxDT _ | .ldVxK _ | .ldDT _
    | .ldST _ | .addI _ | .ldF _ | .ldB _ | .ldMemVx _ | .ldVxMem _ => False

/-- The execute step touches an address outside memory (R211, the three middle rows of its table). -/
def dataOutside (s : State) : Instr → Prop
  | .drw _ _ n => 1 ≤ n ∧ s.I.toNat + n - 1 > 0xFFF
  | .ldVxMem x => s.I.toNat + x.val > 0xFFF
  | .ldB _ => s.I.toNat + 2 > 0xFFF
  | .ldMemVx x => s.I.toNat + x.val > 0xFFF
  | .cls | .ret | .jp _ | .call _ | .seByte _ _ | .sneByte _ _ | .seReg _ _ | .sneReg _ _ | .ldByte _ _
    | .addByte _ _ | .ldReg _ _ | .orReg _ _ | .andReg _ _ | .xorReg _ _ | .addReg _ _ | .subReg _ _ | .shr _ _
    | .subnReg _ _ | .shl _ _ | .skp _ | .sknp _ | .ldI _ | .jpV0 _ | .rnd _ _ | .ldVxDT _ | .ldVxK _ | .ldDT _
    | .ldST _ | .addI _ | .ldF _ => False

/-- The candidate `pc_next` of an instruction whose execute step raises nothing (R103). -/
def pcCandidate (s : State) : Instr → Nat
  | .jp nnn => nnn.toNat
  | .call nnn => nnn.toNat
  | .jpV0 nnn => nnn.toNat + (s.V[(0 : Reg)]).toNat
  | .ret => (s.stack.toList.getD (s.sp.val - 1) 0).toNat
  | .seByte x kk => if s.V[x] = kk then s.pc.toNat + 4 else s.pc.toNat + 2
  | .sneByte x kk => if s.V[x] = kk then s.pc.toNat + 2 else s.pc.toNat + 4
  | .seReg x y => if s.V[x] = s.V[y] then s.pc.toNat + 4 else s.pc.toNat + 2
  | .sneReg x y => if s.V[x] = s.V[y] then s.pc.toNat + 2 else s.pc.toNat + 4
  | .skp x => if s.keyHeld (s.V[x]) = true then s.pc.toNat + 4 else s.pc.toNat + 2
  | .sknp x => if s.keyHeld (s.V[x]) = true then s.pc.toNat + 2 else s.pc.toNat + 4
  | .ldVxK _ => if ∃ k : Fin 16, s.input.keys[k] = true then s.pc.toNat + 2 else s.pc.toNat
  | .cls | .ldByte _ _ | .addByte _ _ | .ldReg _ _ | .orReg _ _ | .andReg _ _ | .xorReg _ _ | .addReg _ _
    | .subReg _ _ | .shr _ _ | .subnReg _ _ | .shl _ _ | .ldI _ | .rnd _ _ | .drw _ _ _ | .ldVxDT _ | .ldDT _
    | .ldST _ | .addI _ | .ldF _ | .ldB _ | .ldMemVx _ | .ldVxMem _ => s.pc.toNat + 2

/-- The registers an instruction may write: its destination, and `VF` for the six that write the flag (R22). -/
def mayWrite : Instr → Reg → Prop
  | .ldByte x _, r => r = x
  | .addByte x _, r => r = x
  | .ldReg x _, r => r = x
  | .orReg x _, r => r = x
  | .andReg x _, r => r = x
  | .xorReg x _, r => r = x
  | .addReg x _, r => r = x ∨ r = VF
  | .subReg x _, r => r = x ∨ r = VF
  | .shr x _, r => r = x ∨ r = VF
  | .subnReg x _, r => r = x ∨ r = VF
  | .shl x _, r => r = x ∨ r = VF
  | .drw _ _ _, r => r = VF
  | .rnd x _, r => r = x
  | .ldVxDT x, r => r = x
  | .ldVxK x, r => r = x
  | .ldVxMem x, r => r ≤ x
  | .cls, _ | .ret, _ | .jp _, _ | .call _, _ | .seByte _ _, _ | .sneByte _ _, _ | .seReg _ _, _
    | .sneReg _ _, _ | .skp _, _ | .sknp _, _ | .ldI _, _ | .jpV0 _, _ | .ldDT _, _ | .ldST _, _ | .addI _, _
    | .ldF _, _ | .ldB _, _ | .ldMemVx _, _ => False

/-- The bytes an instruction stores to: the first address, the model's own `State.dataBase`, and how many (R163,
R164). Every other instruction stores nothing (R50). -/
def stores (s : State) : Instr → Option (Nat × Nat)
  | .ldB _ => some (s.dataBase, 3)
  | .ldMemVx x => some (s.dataBase, x.val + 1)
  | .cls | .ret | .jp _ | .call _ | .seByte _ _ | .sneByte _ _ | .seReg _ _ | .sneReg _ _ | .ldByte _ _
    | .addByte _ _ | .ldReg _ _ | .orReg _ _ | .andReg _ _ | .xorReg _ _ | .addReg _ _ | .subReg _ _ | .shr _ _
    | .subnReg _ _ | .shl _ _ | .skp _ | .sknp _ | .ldI _ | .jpV0 _ | .rnd _ _ | .drw _ _ _ | .ldVxDT _
    | .ldVxK _ | .ldDT _ | .ldST _ | .addI _ | .ldF _ | .ldVxMem _ => none

/-- Pixel `(px, py)` lies under a 1 bit of the sprite of `n` rows at `I`, drawn at `(Vx, Vy)`: bit 7 is column 0
(R181, R182). -/
def Covers (s : State) (x y : Reg) (n : Nat) (px : Fin 64) (py : Fin 32) : Prop :=
  ∃ row col, row < n ∧ col < 8 ∧ px.val = ((s.V[x]).toNat + col) % 64 ∧ py.val = ((s.V[y]).toNat + row) % 32 ∧
    (s.mem.read (s.I.toNat + row)).getLsbD (7 - col) = true

end Sys2Proof.Spec

open Sys2Proof Sys2Proof.Machine Sys2Proof.Spec

/-! ## Encoding and decoding -/

/-- Every well-formed instruction's word decodes to it, every operand at every value (R82 to R84). The opcode
numbers are the spec's general knowledge (notes/assumptions/7.md). -/
def Obligations.DecodeOfEncodeIsIdentity : Prop :=
  ∀ i : Instr, i.wf = true → decode (encode i) = .ok i

/-- Every recognized word is the word of the instruction it decodes to, and that instruction is well formed: no bit of
a word is dropped. That is so because SHR and SHL keep the `y` field that R83 has them ignore, the model's own choice
(notes/assumptions/8.md), and because decoding is strict, the spec's decision D2 on its general-knowledge opcode
numbers (notes/assumptions/7.md). -/
def Obligations.EncodeOfDecodeIsIdentity : Prop :=
  ∀ (op : Word) (i : Instr), decode op = .ok i → i.wf = true ∧ encode i = op

/-- The decoder is R84's table, matched strictly (R85): it answers an instruction exactly for the words that select
one of the 34 rows, and the instruction is of that row; the rows are pairwise disjoint (R84, R87). The numbers and the
strictness are the spec's choices (notes/assumptions/7.md). -/
def Obligations.DecodeFollowsOpcodeRows : Prop :=
  opcodeRows.length = 34 ∧
  opcodeRows.Pairwise (fun r q => ∀ op : Word, ¬ (r.selects op = true ∧ q.selects op = true)) ∧
  (∀ (op : Word) (i : Instr), decode op = .ok i → i.row ∈ opcodeRows ∧ i.row.selects op = true) ∧
  (∀ (op : Word) (r : OpRow), r ∈ opcodeRows → r.selects op = true → ∃ i, decode op = .ok i ∧ i.row = r)

/-- The unrecognized words are exactly those of R86's table, family by family (rests on notes/assumptions/7.md). -/
def Obligations.UnrecognizedWordsAreThoseOfTheTable : Prop :=
  ∀ op : Word, (∃ e, decode op = .error e) ↔
    (op.toNat / 4096 = 0x0 ∧ op.toNat ≠ 0x0E0 ∧ op.toNat ≠ 0x0EE) ∨
    (op.toNat / 4096 = 0x5 ∧ op.toNat % 16 ≠ 0) ∨
    (op.toNat / 4096 = 0x8 ∧ op.toNat % 16 ∈ [0x8, 0x9, 0xA, 0xB, 0xC, 0xD, 0xF]) ∨
    (op.toNat / 4096 = 0x9 ∧ op.toNat % 16 ≠ 0) ∨
    (op.toNat / 4096 = 0xE ∧ op.toNat % 256 ≠ 0x9E ∧ op.toNat % 256 ≠ 0xA1) ∨
    (op.toNat / 4096 = 0xF ∧ op.toNat % 256 ∉ [0x07, 0x0A, 0x15, 0x18, 0x1E, 0x29, 0x33, 0x55, 0x65])

/-- Words of the spec's own vectors, one at least of each of the sixteen families: of 95_test_vectors.md B1, and for the
families 4, 6, 7, A and C those of B2.16, B3.50, B3.52, B4.1 and B6.20. The opcode numbers are the spec's general
knowledge (notes/assumptions/7.md). -/
def Obligations.WordsOfTheVectorsDecode : Prop :=
  decode 0x00E0 = .ok .cls ∧ decode 0x00EE = .ok .ret ∧ decode 0x1ABC = .ok (.jp 0xABC) ∧
  decode 0x2FFF = .ok (.call 0xFFF) ∧ decode 0x3A7F = .ok (.seByte 0xA 0x7F) ∧
  decode 0x5AB0 = .ok (.seReg 0xA 0xB) ∧ decode 0x8AB7 = .ok (.subnReg 0xA 0xB) ∧
  decode 0x8ABE = .ok (.shl 0xA 0xB) ∧ decode 0x9AB0 = .ok (.sneReg 0xA 0xB) ∧
  decode 0xB123 = .ok (.jpV0 0x123) ∧ decode 0xD12F = .ok (.drw 1 2 15) ∧ decode 0xE19E = .ok (.skp 1) ∧
  decode 0xE1A1 = .ok (.sknp 1) ∧ decode 0xF165 = .ok (.ldVxMem 1) ∧ decode 0x4305 = .ok (.sneByte 3 0x05) ∧
  decode 0x6A05 = .ok (.ldByte 0xA 0x05) ∧ decode 0x7002 = .ok (.addByte 0 0x02) ∧
  decode 0xA2F0 = .ok (.ldI 0x2F0) ∧ decode 0xC30F = .ok (.rnd 3 0x0F)

/-- Every instruction is exactly two bytes, the high byte first: a list of fewer than two bytes is no instruction, and
what a longer one decodes to is what the word made of its first two bytes decodes to, exactly those two taken (R80). -/
def Obligations.InstructionsAreTwoBytesBigEndian : Prop :=
  (∀ (bytes : List Byte) (i : Instr × List Byte), bytes.length < 2 → decodeBytes bytes ≠ .ok i) ∧
  (∀ (hi lo : Byte) (rest : List Byte) (i : Instr × List Byte),
    decodeBytes (hi :: lo :: rest) = .ok i ↔
      decode (BitVec.ofNat 16 (hi.toNat * 256 + lo.toNat)) = .ok i.1 ∧ i.2 = rest)

/-! ## The cycle -/

/-- Fetch joins the bytes at `pc` and `pc + 1` big-endian, at any parity; at `pc = 0xFFF` it raises AddressingFault,
and no other fetch faults (R101). -/
def Obligations.FetchJoinsTwoBytesOrFaultsAtTheTop : Prop :=
  ∀ s : State, LegalPc s.pc.toNat →
    (s.pc.toNat < 0xFFF → ∃ op, s.fetch = .ok op ∧
      op.toNat = (s.mem.read s.pc.toNat).toNat * 256 + (s.mem.read (s.pc.toNat + 1)).toNat) ∧
    (s.pc.toNat = 0xFFF → s.fetch = .error .addressing ∧
      (s.fault = none → s.CycleNext → ∃ t, step s = .next t ∧ t.fault = some .addressing))

/-- A step runs the decoded instruction: when the latch is clear, a cycle is next and the word at `pc` decodes to `i`,
the step is `exec i`, which is the whole cycle after the fetch (R100, R102). -/
def Obligations.StepRunsTheDecodedInstruction : Prop :=
  ∀ (s : State) (i : Instr) (op : Word),
    s.fault = none → s.CycleNext → s.fetch = .ok op → decode op = .ok i → step s = exec i s

/-- An unrecognized word is a no-op: `pc + 2`, the timers tick, nothing else changes; where `pc + 2` is out of range
the cycle raises AddressingFault (R109). -/
def Obligations.UnrecognizedWordIsANoOp : Prop :=
  ∀ (s : State) (op : Word) (e : Reject),
    s.fault = none → s.CycleNext → s.fetch = .ok op → decode op = .error e →
    (LegalPc (s.pc.toNat + 2) → ∃ t, step s = .next t ∧ OnlyPc s t (s.pc.toNat + 2)) ∧
    (¬ LegalPc (s.pc.toNat + 2) → ∃ t, step s = .next t ∧ t.fault = some .addressing)

/-- While the latch holds a fault the core is halted: a cycle changes nothing and answers the same fault; a `Load`
writes memory and leaves the latch and the rest; only `Reset` clears it (R218). The latch is the spec's decision D7,
the outcome `fault` for a cycle while halted is the model's form of it (notes/assumptions/3.md). -/
def Obligations.HaltedCoreOnlyLoadsOrResets : Prop :=
  ∀ (s : State) (k : Fault), s.fault = some k →
    (s.CycleNext → step s = .fault k) ∧
    (∀ bytes rest, s.requests = .load bytes :: rest → ∃ t, step s = .next t ∧ t.fault = some k ∧ t.pc = s.pc ∧
      SameV s t ∧ SameI s t ∧ SameStack s t ∧ SameTimers s t ∧ SameFb s t ∧ t.mem = s.mem.load bytes) ∧
    (∀ t, step s = .next t → t.fault = none → ∃ rest, s.requests = .reset :: rest)

/-! ## Constants and the register ALU group -/

/-- LD Vx, kk: `Vx` takes `kk`; nothing else but `pc` and the timers (R140). -/
def Obligations.LdByteLoadsConstant : Prop :=
  ∀ (x : Reg) (kk : Byte) (s : State), LegalPc (s.pc.toNat + 2) →
    ∃ t, exec (.ldByte x kk) s = .next t ∧ OnlyRegisters s t (s.pc.toNat + 2) ∧
      ∀ r : Reg, t.V[r] = if r = x then kk else s.V[r]

/-- ADD Vx, kk: the sum modulo 256, and no flag: `VF` changes only as the destination (R141). -/
def Obligations.AddByteWrapsAndWritesNoFlag : Prop :=
  ∀ (x : Reg) (kk : Byte) (s : State), LegalPc (s.pc.toNat + 2) →
    ∃ t, exec (.addByte x kk) s = .next t ∧ OnlyRegisters s t (s.pc.toNat + 2) ∧
      ∀ r : Reg, (t.V[r]).toNat = if r = x then ((s.V[x]).toNat + kk.toNat) % 256 else (s.V[r]).toNat

/-- LD Vx, Vy: `Vx` takes `Vy` (R142). -/
def Obligations.LdRegCopiesRegister : Prop :=
  ∀ (x y : Reg) (s : State), LegalPc (s.pc.toNat + 2) →
    ∃ t, exec (.ldReg x y) s = .next t ∧ OnlyRegisters s t (s.pc.toNat + 2) ∧
      ∀ r : Reg, t.V[r] = if r = x then s.V[y] else s.V[r]

/-- OR, AND and XOR: the bitwise result in `Vx`, and `VF` not written (R143, R144, R145). -/
def Obligations.BitwiseOperationsWriteNoFlag : Prop :=
  ∀ (x y : Reg) (s : State), LegalPc (s.pc.toNat + 2) →
    (∃ t, exec (.orReg x y) s = .next t ∧ OnlyRegisters s t (s.pc.toNat + 2) ∧
      ∀ (r : Reg) (j : Nat), (t.V[r]).getLsbD j =
        if r = x then (s.V[x]).getLsbD j || (s.V[y]).getLsbD j else (s.V[r]).getLsbD j) ∧
    (∃ t, exec (.andReg x y) s = .next t ∧ OnlyRegisters s t (s.pc.toNat + 2) ∧
      ∀ (r : Reg) (j : Nat), (t.V[r]).getLsbD j =
        if r = x then (s.V[x]).getLsbD j && (s.V[y]).getLsbD j else (s.V[r]).getLsbD j) ∧
    (∃ t, exec (.xorReg x y) s = .next t ∧ OnlyRegisters s t (s.pc.toNat + 2) ∧
      ∀ (r : Reg) (j : Nat), (t.V[r]).getLsbD j =
        if r = x then ((s.V[x]).getLsbD j ^^ (s.V[y]).getLsbD j) else (s.V[r]).getLsbD j)

/-- ADD Vx, Vy: the sum modulo 256 in `Vx`, then 1 in `VF` when it exceeds 255, else 0; with `x = 0xF` the flag is
what remains; both operands are the old values (R146, R152). -/
def Obligations.AddRegWritesSumThenCarry : Prop :=
  ∀ (x y : Reg) (s : State), LegalPc (s.pc.toNat + 2) →
    ∃ t, exec (.addReg x y) s = .next t ∧ OnlyRegisters s t (s.pc.toNat + 2) ∧
      ∀ r : Reg, (t.V[r]).toNat =
        if r = VF then (if (s.V[x]).toNat + (s.V[y]).toNat > 255 then 1 else 0)
        else if r = x then ((s.V[x]).toNat + (s.V[y]).toNat) % 256 else (s.V[r]).toNat

/-- SUB Vx, Vy: `(a − b + 256) mod 256` in `Vx`, then 1 in `VF` when `a >= b`, else 0 (R147, R152). -/
def Obligations.SubRegWritesDifferenceThenNoBorrow : Prop :=
  ∀ (x y : Reg) (s : State), LegalPc (s.pc.toNat + 2) →
    ∃ t, exec (.subReg x y) s = .next t ∧ OnlyRegisters s t (s.pc.toNat + 2) ∧
      ∀ r : Reg, (t.V[r]).toNat =
        if r = VF then (if (s.V[x]).toNat ≥ (s.V[y]).toNat then 1 else 0)
        else if r = x then ((s.V[x]).toNat + 256 - (s.V[y]).toNat) % 256 else (s.V[r]).toNat

/-- SUBN Vx, Vy: `Vy − Vx` modulo 256 in `Vx`, then 1 in `VF` when `Vy >= Vx`, else 0 (R149; the flag is the spec's
decision D17, notes/assumptions/13.md). -/
def Obligations.SubnRegWritesReverseDifferenceThenNoBorrow : Prop :=
  ∀ (x y : Reg) (s : State), LegalPc (s.pc.toNat + 2) →
    ∃ t, exec (.subnReg x y) s = .next t ∧ OnlyRegisters s t (s.pc.toNat + 2) ∧
      ∀ r : Reg, (t.V[r]).toNat =
        if r = VF then (if (s.V[y]).toNat ≥ (s.V[x]).toNat then 1 else 0)
        else if r = x then ((s.V[y]).toNat + 256 - (s.V[x]).toNat) % 256 else (s.V[r]).toNat

/-- SHR and SHL: `Vx` shifted by one with a 0 entering, then the bit shifted out in `VF`, whatever `y` is (R148, R150;
that `Vx` is the operand and `y` ignored is the spec's decision D16, notes/assumptions/13.md). -/
def Obligations.ShiftsWriteResultThenBitShiftedOut : Prop :=
  ∀ (x y : Reg) (s : State), LegalPc (s.pc.toNat + 2) →
    (∃ t, exec (.shr x y) s = .next t ∧ OnlyRegisters s t (s.pc.toNat + 2) ∧
      ∀ r : Reg, (t.V[r]).toNat =
        if r = VF then (s.V[x]).toNat % 2 else if r = x then (s.V[x]).toNat / 2 else (s.V[r]).toNat) ∧
    (∃ t, exec (.shl x y) s = .next t ∧ OnlyRegisters s t (s.pc.toNat + 2) ∧
      ∀ r : Reg, (t.V[r]).toNat =
        if r = VF then (s.V[x]).toNat / 128 else if r = x then (s.V[x]).toNat * 2 % 256 else (s.V[r]).toNat)

/-! ## Control flow -/

/-- JP nnn: `pc` takes `nnn`; a target below 0x200 raises AddressingFault (R121). -/
def Obligations.JpSetsPcOrFaults : Prop :=
  ∀ (nnn : Word) (s : State), nnn.toNat ≤ 0xFFF →
    (0x200 ≤ nnn.toNat → ∃ t, exec (.jp nnn) s = .next t ∧ OnlyPc s t nnn.toNat) ∧
    (nnn.toNat < 0x200 → Raises (.jp nnn) s .addressing)

/-- CALL nnn: with fewer than 16 entries in use, `pc + 2` is pushed and `pc` takes `nnn`; with 16, StackOverflow
whatever the target; otherwise a target below 0x200 raises AddressingFault; on either fault nothing is pushed (R122). -/
def Obligations.CallPushesReturnAddressOrFaults : Prop :=
  ∀ (nnn : Word) (s : State), nnn.toNat ≤ 0xFFF → LegalPc s.pc.toNat →
    (s.sp.val < 16 → 0x200 ≤ nnn.toNat → ∃ t, exec (.call nnn) s = .next t ∧ Retired s t nnn.toNat false ∧
      Ticked s t ∧ SameV s t ∧ SameI s t ∧ SameFb s t ∧ SameMem s t ∧ t.sp.val = s.sp.val + 1 ∧
      ∀ k : Fin 16, (t.stack[k]).toNat = if k.val = s.sp.val then s.pc.toNat + 2 else (s.stack[k]).toNat) ∧
    (s.sp.val = 16 → ∃ t, exec (.call nnn) s = .next t ∧ t.fault = some .stackOverflow ∧ SameStack s t) ∧
    (s.sp.val < 16 → nnn.toNat < 0x200 → ∃ t, exec (.call nnn) s = .next t ∧ t.fault = some .addressing ∧
      SameStack s t)

/-- RET: `pc` takes the most recent entry and nothing is added to it; the entry keeps its content; with none in use,
StackUnderflow; an entry out of range raises AddressingFault (R120; that nothing is added is 90_conflicts.md C3). -/
def Obligations.RetPopsReturnAddressOrFaults : Prop :=
  ∀ (s : State),
    (∀ k : Fin 16, s.sp.val = k.val + 1 → LegalPc (s.stack[k]).toNat →
      ∃ t, exec .ret s = .next t ∧ Retired s t (s.stack[k]).toNat false ∧ Ticked s t ∧ SameV s t ∧ SameI s t ∧
        SameFb s t ∧ SameMem s t ∧ t.sp.val = k.val ∧ ∀ j : Fin 16, t.stack[j] = s.stack[j]) ∧
    (∀ k : Fin 16, s.sp.val = k.val + 1 → ¬ LegalPc (s.stack[k]).toNat → Raises .ret s .addressing) ∧
    (s.sp.val = 0 → Raises .ret s .stackUnderflow)

/-- SE Vx, kk and SNE Vx, kk: advance by 4 on a match, or by 2, and the reverse; nothing else is written but the
timers' tick; an advance past 0xFFF raises AddressingFault (R123, R124). -/
def Obligations.ConstantSkipsAdvanceByFourOrTwo : Prop :=
  ∀ (x : Reg) (kk : Byte) (s : State),
    (s.V[x] = kk → GoesTo (.seByte x kk) s (s.pc.toNat + 4)) ∧
    (s.V[x] ≠ kk → GoesTo (.seByte x kk) s (s.pc.toNat + 2)) ∧
    (s.V[x] ≠ kk → GoesTo (.sneByte x kk) s (s.pc.toNat + 4)) ∧
    (s.V[x] = kk → GoesTo (.sneByte x kk) s (s.pc.toNat + 2))

/-- SE Vx, Vy and SNE Vx, Vy, likewise (R125, R126). -/
def Obligations.RegisterSkipsAdvanceByFourOrTwo : Prop :=
  ∀ (x y : Reg) (s : State),
    (s.V[x] = s.V[y] → GoesTo (.seReg x y) s (s.pc.toNat + 4)) ∧
    (s.V[x] ≠ s.V[y] → GoesTo (.seReg x y) s (s.pc.toNat + 2)) ∧
    (s.V[x] ≠ s.V[y] → GoesTo (.sneReg x y) s (s.pc.toNat + 4)) ∧
    (s.V[x] = s.V[y] → GoesTo (.sneReg x y) s (s.pc.toNat + 2))

/-- JP V0, nnn: `pc` takes `nnn + V0`, not reduced; a sum out of range raises AddressingFault (R128). -/
def Obligations.JpV0AddsV0OrFaults : Prop :=
  ∀ (nnn : Word) (s : State), nnn.toNat ≤ 0xFFF →
    GoesTo (.jpV0 nnn) s (nnn.toNat + (s.V[(0 : Reg)]).toNat)

/-! ## Index register and memory transfers -/

/-- LD I, nnn: `I` takes `nnn`, zero-extended (R160). -/
def Obligations.LdISetsIndex : Prop :=
  ∀ (nnn : Word) (s : State), nnn.toNat ≤ 0xFFF → LegalPc (s.pc.toNat + 2) →
    ∃ t, exec (.ldI nnn) s = .next t ∧ Retired s t (s.pc.toNat + 2) false ∧ Ticked s t ∧ SameV s t ∧
      SameStack s t ∧ SameFb s t ∧ SameMem s t ∧ t.I.toNat = nnn.toNat

/-- ADD I, Vx: the sum modulo 65536, no fault and no flag whatever the sum (R161; the wrap is the spec's decision D18,
notes/assumptions/14.md). -/
def Obligations.AddIWrapsAtSixteenBits : Prop :=
  ∀ (x : Reg) (s : State), LegalPc (s.pc.toNat + 2) →
    ∃ t, exec (.addI x) s = .next t ∧ Retired s t (s.pc.toNat + 2) false ∧ Ticked s t ∧ SameV s t ∧
      SameStack s t ∧ SameFb s t ∧ SameMem s t ∧ t.I.toNat = (s.I.toNat + (s.V[x]).toNat) % 65536

/-- LD F, Vx: `I` takes `5 · Vx`, for every `Vx` (R162; that nothing is masked is the spec's decision D20,
notes/assumptions/14.md). -/
def Obligations.LdFPointsAtGlyph : Prop :=
  ∀ (x : Reg) (s : State), LegalPc (s.pc.toNat + 2) →
    ∃ t, exec (.ldF x) s = .next t ∧ Retired s t (s.pc.toNat + 2) false ∧ Ticked s t ∧ SameV s t ∧
      SameStack s t ∧ SameFb s t ∧ SameMem s t ∧ t.I.toNat = 5 * (s.V[x]).toNat

/-- LD B, Vx: hundreds at `I`, tens at `I + 1`, ones at `I + 2`, every other byte as before; when one of the three is
outside memory, AddressingFault and no byte written (R163). -/
def Obligations.LdBStoresDecimalDigitsOrFaults : Prop :=
  ∀ (x : Reg) (s : State), s.mem.wf = true → LegalPc (s.pc.toNat + 2) →
    (s.I.toNat + 2 ≤ 0xFFF → ∃ t, exec (.ldB x) s = .next t ∧ Retired s t (s.pc.toNat + 2) false ∧ Ticked s t ∧
      SameV s t ∧ SameI s t ∧ SameStack s t ∧ SameFb s t ∧
      (t.mem.read s.I.toNat).toNat = (s.V[x]).toNat / 100 ∧
      (t.mem.read (s.I.toNat + 1)).toNat = (s.V[x]).toNat / 10 % 10 ∧
      (t.mem.read (s.I.toNat + 2)).toNat = (s.V[x]).toNat % 10 ∧
      ∀ a, a < s.I.toNat ∨ s.I.toNat + 3 ≤ a → t.mem.read a = s.mem.read a) ∧
    (s.I.toNat + 2 > 0xFFF → ∃ t, exec (.ldB x) s = .next t ∧ t.fault = some .addressing ∧ SameMem s t)

/-- LD [I], Vx: `V0` to `Vx` at `I` to `I + x`, every other byte as before, `I` and the registers unchanged; when
`I + x` is outside memory, AddressingFault and no byte written (R164). -/
def Obligations.RegisterDumpStoresFirstRegistersOrFaults : Prop :=
  ∀ (x : Reg) (s : State), s.mem.wf = true → LegalPc (s.pc.toNat + 2) →
    (s.I.toNat + x.val ≤ 0xFFF → ∃ t, exec (.ldMemVx x) s = .next t ∧ Retired s t (s.pc.toNat + 2) false ∧
      Ticked s t ∧ SameV s t ∧ SameI s t ∧ SameStack s t ∧ SameFb s t ∧
      (∀ r : Reg, r ≤ x → t.mem.read (s.I.toNat + r.val) = s.V[r]) ∧
      ∀ a, a < s.I.toNat ∨ s.I.toNat + x.val < a → t.mem.read a = s.mem.read a) ∧
    (s.I.toNat + x.val > 0xFFF → ∃ t, exec (.ldMemVx x) s = .next t ∧ t.fault = some .addressing ∧ SameMem s t)

/-- LD Vx, [I]: `V0` to `Vx` from `I` to `I + x`, the other registers, `I` and memory unchanged; when `I + x` is
outside memory, AddressingFault and no register written (R165). -/
def Obligations.RegisterLoadReadsFirstRegistersOrFaults : Prop :=
  ∀ (x : Reg) (s : State), LegalPc (s.pc.toNat + 2) →
    (s.I.toNat + x.val ≤ 0xFFF → ∃ t, exec (.ldVxMem x) s = .next t ∧ OnlyRegisters s t (s.pc.toNat + 2) ∧
      ∀ r : Reg, t.V[r] = if r ≤ x then s.mem.read (s.I.toNat + r.val) else s.V[r]) ∧
    (s.I.toNat + x.val > 0xFFF → ∃ t, exec (.ldVxMem x) s = .next t ∧ t.fault = some .addressing ∧ SameV s t)

/-! ## Display -/

/-- CLS: every pixel 0, redraw asked for, `VF` not written, whatever the framebuffer held (R180). -/
def Obligations.ClsClearsEveryPixel : Prop :=
  ∀ s : State, LegalPc (s.pc.toNat + 2) →
    ∃ t, exec .cls s = .next t ∧ Retired s t (s.pc.toNat + 2) true ∧ Ticked s t ∧ SameV s t ∧ SameI s t ∧
      SameStack s t ∧ SameMem s t ∧ ∀ (px : Fin 64) (py : Fin 32), t.fb.pixel px py = false

/-- DRW: a pixel changes exactly when it lies under a 1 bit of the sprite, each coordinate wrapping on its own; `VF` is
1 when such a pixel was 1 before and 0 otherwise; redraw is asked for; with `n = 0` nothing is read and nothing faults
(R181; the bit order is the spec's decision D15, the reading of `Vx`, `Vy` before `VF` and `n = 0` its decision D26:
notes/assumptions/16.md). -/
def Obligations.DrwFlipsExactlyTheCoveredPixels : Prop :=
  ∀ (x y : Reg) (n : Nat) (s : State), n ≤ 15 → (n = 0 ∨ s.I.toNat + n - 1 ≤ 0xFFF) → LegalPc (s.pc.toNat + 2) →
    ∃ t, exec (.drw x y n) s = .next t ∧ Retired s t (s.pc.toNat + 2) true ∧ Ticked s t ∧ SameI s t ∧
      SameStack s t ∧ SameMem s t ∧ (∀ r : Reg, r ≠ VF → t.V[r] = s.V[r]) ∧
      (∀ px py, t.fb.pixel px py ≠ s.fb.pixel px py ↔ Covers s x y n px py) ∧
      ((∃ px py, Covers s x y n px py ∧ s.fb.pixel px py = true) → t.V[VF] = 1) ∧
      ((¬ ∃ px py, Covers s x y n px py ∧ s.fb.pixel px py = true) → t.V[VF] = 0)

/-- Drawing the same sprite twice at the same place restores every pixel; over pixels that were clear, a sprite with a
1 bit collides on the second draw (95_test_vectors.md A7, R181). `x` and `y` are not `VF`, which the first draw
writes. -/
def Obligations.DrawingTwiceRestoresTheScreen : Prop :=
  ∀ (x y : Reg) (n : Nat) (s t u : State), n ≤ 15 → x ≠ VF → y ≠ VF →
    exec (.drw x y n) s = .next t → t.fault = none → exec (.drw x y n) t = .next u → u.fault = none →
    SameFb s u ∧
    ((∃ px py, Covers s x y n px py) → (∀ px py, Covers s x y n px py → s.fb.pixel px py = false) →
      t.V[VF] = 0 ∧ u.V[VF] = 1)

/-! ## Timers, keys, random -/

/-- LD Vx, DT: `Vx` takes the timer as it stood before this cycle's tick (R190). -/
def Obligations.LdVxDTReadsTimerBeforeTheTick : Prop :=
  ∀ (x : Reg) (s : State), LegalPc (s.pc.toNat + 2) →
    ∃ t, exec (.ldVxDT x) s = .next t ∧ OnlyRegisters s t (s.pc.toNat + 2) ∧
      ∀ r : Reg, t.V[r] = if r = x then s.DT else s.V[r]

/-- LD DT, Vx and LD ST, Vx: the tick of the same cycle follows the write, so the timer ends at `Vx − 1`, or at 0; the
other timer ticks; `tone` after LD ST is `Vx >= 2` (R191, R192). -/
def Obligations.TimerWritesAreTickedInTheSameCycle : Prop :=
  ∀ (x : Reg) (s : State), LegalPc (s.pc.toNat + 2) →
    (∃ t, exec (.ldDT x) s = .next t ∧ Retired s t (s.pc.toNat + 2) false ∧ SameV s t ∧ SameI s t ∧
      SameStack s t ∧ SameFb s t ∧ SameMem s t ∧ t.DT.toNat = (s.V[x]).toNat - 1 ∧ t.ST.toNat = s.ST.toNat - 1) ∧
    (∃ t, exec (.ldST x) s = .next t ∧ Retired s t (s.pc.toNat + 2) false ∧ SameV s t ∧ SameI s t ∧
      SameStack s t ∧ SameFb s t ∧ SameMem s t ∧ t.DT.toNat = s.DT.toNat - 1 ∧ t.ST.toNat = (s.V[x]).toNat - 1 ∧
      t.result = some (.ok false (decide ((s.V[x]).toNat ≥ 2))))

/-- SKP and SKNP: skip on the key `Vx mod 16` of this cycle's snapshot (R193, R194, R197; the modulus is the spec's
decision D21, notes/assumptions/15.md). -/
def Obligations.KeySkipsTestTheKeyOfThisCycle : Prop :=
  ∀ (x : Reg) (k : Fin 16) (s : State), k.val = (s.V[x]).toNat % 16 →
    (s.input.keys[k] = true → GoesTo (.skp x) s (s.pc.toNat + 4)) ∧
    (s.input.keys[k] = false → GoesTo (.skp x) s (s.pc.toNat + 2)) ∧
    (s.input.keys[k] = false → GoesTo (.sknp x) s (s.pc.toNat + 4)) ∧
    (s.input.keys[k] = true → GoesTo (.sknp x) s (s.pc.toNat + 2))

/-- LD Vx, K: with no key held `pc` stays, `Vx` is not written and the timers tick; otherwise `Vx` takes the smallest
key held and `pc` advances by 2 (R195; the smallest is the spec's decision D22, notes/assumptions/15.md). -/
def Obligations.LdVxKWaitsOrTakesTheSmallestKey : Prop :=
  ∀ (x : Reg) (s : State),
    (LegalPc s.pc.toNat → (∀ k : Fin 16, s.input.keys[k] = false) →
      ∃ t, exec (.ldVxK x) s = .next t ∧ OnlyPc s t s.pc.toNat) ∧
    (∀ k : Fin 16, LegalPc (s.pc.toNat + 2) → s.input.keys[k] = true → (∀ j : Fin 16, j < k → s.input.keys[j] = false) →
      ∃ t, exec (.ldVxK x) s = .next t ∧ OnlyRegisters s t (s.pc.toNat + 2) ∧
        ∀ r : Reg, (t.V[r]).toNat = if r = x then k.val else (s.V[r]).toNat)

/-- RND Vx, kk: `Vx` takes `rand & kk`, for whatever `rand` this cycle has (R196; a free input by the spec's decision
D23, notes/assumptions/1.md). -/
def Obligations.RndMasksTheRandomByte : Prop :=
  ∀ (x : Reg) (kk : Byte) (s : State), LegalPc (s.pc.toNat + 2) →
    ∃ t, exec (.rnd x kk) s = .next t ∧ OnlyRegisters s t (s.pc.toNat + 2) ∧
      ∀ (r : Reg) (j : Nat), (t.V[r]).getLsbD j =
        if r = x then s.input.rand.getLsbD j && kk.getLsbD j else (s.V[r]).getLsbD j

/-- The inputs of a cycle are those of the host's request, and they reach the state only through SKP, SKNP, LD Vx, K
(the keys) and RND (the random byte): under any other inputs every other instruction does the same (R33, R196, R198).
That the inputs stand in a pending request is the model's choice (notes/assumptions/2.md). -/
def Obligations.InputsReachOnlyKeyAndRandomInstructions : Prop :=
  ∀ (s : State) (p q : CycleInput) (rest : List HostRequest) (i : Instr),
    ({ s with requests := .cycle p :: rest } : State).input = p ∧
    ((∀ x, i ≠ .skp x) → (∀ x, i ≠ .sknp x) → (∀ x, i ≠ .ldVxK x) → p.rand = q.rand →
      exec i { s with requests := .cycle p :: rest } = exec i { s with requests := .cycle q :: rest }) ∧
    ((∀ x kk, i ≠ .rnd x kk) → p.keys = q.keys →
      exec i { s with requests := .cycle p :: rest } = exec i { s with requests := .cycle q :: rest })

/-! ## Rules of the whole machine -/

/-- Where no fault is raised, `pc` takes the value R103's table gives the instruction, and that value is in range
(R103, R104). -/
def Obligations.PcFollowsTheControlFlowTable : Prop :=
  ∀ (i : Instr) (s t : State), s.fault = none → exec i s = .next t → t.fault = none →
    t.pc.toNat = pcCandidate s i ∧ LegalPc (pcCandidate s i)

/-- AddressingFault is raised in exactly the cases of R211, for every instruction: no stack fault came first, and a
data address or the candidate `pc` is out of range (R211, R216; the point of the check and the order are the spec's
decisions D3 and D9, notes/assumptions/10.md and 11.md). -/
def Obligations.AddressingFaultExactlyWhenOutOfRange : Prop :=
  ∀ (i : Instr) (s t : State), s.fault = none → exec i s = .next t →
    (t.fault = some .addressing ↔
      ¬ stackFault s i ∧ (dataOutside s i ∨ ¬ LegalPc (pcCandidate s i)))

/-- StackOverflow is raised by CALL when `sp = 16`, before anything is written, and by nothing else (R212). -/
def Obligations.StackOverflowOnlyByCallOnAFullStack : Prop :=
  (∀ (nnn : Word) (s : State), s.sp.val = 16 → ∃ t, exec (.call nnn) s = .next t ∧ Faulted s t .stackOverflow) ∧
  (∀ s t : State, s.fault = none → step s = .next t → t.fault = some .stackOverflow →
    ∃ nnn, s.Runs (.call nnn) ∧ s.sp.val = 16)

/-- StackUnderflow is raised by RET when `sp = 0`, and by nothing else (R213). -/
def Obligations.StackUnderflowOnlyByRetOnAnEmptyStack : Prop :=
  (∀ s : State, s.sp.val = 0 → ∃ t, exec .ret s = .next t ∧ t.fault = some .stackUnderflow) ∧
  (∀ s t : State, s.fault = none → step s = .next t → t.fault = some .stackUnderflow →
    s.Runs .ret ∧ s.sp.val = 0)

/-- Faults are precise: a step that raises a fault leaves every element as it was but for the latch (R217, R107; the
spec's decision D6, notes/assumptions/11.md). -/
def Obligations.FaultsArePrecise : Prop :=
  ∀ (s t : State) (k : Fault), s.fault = none → step s = .next t → t.fault = some k → Faulted s t k

/-- General registers: an instruction leaves every register as it was but its destination, and `VF` for the six that
write the flag (R21, R22). -/
def Obligations.RegistersChangeOnlyAsDestinations : Prop :=
  ∀ (i : Instr) (s t : State) (r : Reg), exec i s = .next t → ¬ mayWrite i r → t.V[r] = s.V[r]

/-- `I` is changed by LD I, ADD I and LD F alone, and by no memory access (R23). -/
def Obligations.IndexChangesOnlyByIndexInstructions : Prop :=
  ∀ (i : Instr) (s t : State), exec i s = .next t →
    (∀ nnn, i ≠ .ldI nnn) → (∀ x, i ≠ .addI x) → (∀ x, i ≠ .ldF x) → t.I = s.I

/-- The stack is written by CALL alone, and `sp` by CALL and RET alone; entries below `sp` survive every instruction
(R25, R129). -/
def Obligations.StackChangesOnlyByCallAndRet : Prop :=
  ∀ (i : Instr) (s t : State), exec i s = .next t →
    ((∀ nnn, i ≠ .call nnn) → ∀ k : Fin 16, t.stack[k] = s.stack[k]) ∧
    ((∀ nnn, i ≠ .call nnn) → i ≠ .ret → t.sp = s.sp) ∧
    (∀ k : Fin 16, k.val < s.sp.val → t.stack[k] = s.stack[k])

/-- The framebuffer is changed by CLS and DRW alone (R183, R28). -/
def Obligations.FramebufferChangesOnlyByClsAndDrw : Prop :=
  ∀ (i : Instr) (s t : State), exec i s = .next t → i ≠ .cls → (∀ x y n, i ≠ .drw x y n) → SameFb s t

/-- Memory: every byte outside those an instruction stores to reads as before, for every instruction; one that stores
nothing leaves all of memory (R50, R54, R55). -/
def Obligations.MemoryChangesOnlyInTheStoredBytes : Prop :=
  ∀ (i : Instr) (s t : State), exec i s = .next t →
    (stores s i = none → ∀ a, t.mem.read a = s.mem.read a) ∧
    (∀ base count, stores s i = some (base, count) → ∀ a, a < base ∨ base + count ≤ a →
      t.mem.read a = s.mem.read a)

/-- Every cycle that does not fault ticks both timers once, the cycles of unrecognized words and waiting ones included,
unless its instruction wrote the timer; a cycle that faults ticks neither (R105, R221; which cycles tick is the spec's
decision D29, notes/assumptions/18.md). -/
def Obligations.TimersTickOncePerCycle : Prop :=
  ∀ s t : State, s.fault = none → s.CycleNext → step s = .next t →
    (t.fault = none → (∀ x, ¬ s.Runs (.ldDT x)) → t.DT.toNat = s.DT.toNat - 1) ∧
    (t.fault = none → (∀ x, ¬ s.Runs (.ldST x)) → t.ST.toNat = s.ST.toNat - 1) ∧
    (t.fault ≠ none → SameTimers s t)

/-- A delay timer nobody writes counts down to 0 and stays there: after `n` cycles, from any state, it holds
`max(DT − n, 0)` (R105; 95_test_vectors.md A11; that unrecognized and waiting cycles tick and faulting ones do not is
the spec's decision D29, notes/assumptions/18.md). -/
def Obligations.DelayTimerCountsDownAlongARun : Prop :=
  ∀ (n : Nat) (s t : State),
    RunsThrough (fun u => u.fault = none ∧ u.CycleNext ∧ ∀ x, ¬ u.Runs (.ldDT x)) n s t → t.fault = none →
    t.DT.toNat = s.DT.toNat - n

/-- A cycle's `redraw` is true exactly when it ran CLS or DRW, and `tone` exactly when the ticked `ST` is above 0
(R106, R184). That the answer stands in `result` is the model's choice (notes/assumptions/4.md). -/
def Obligations.RedrawExactlyOnClsOrDrw : Prop :=
  ∀ (s t : State) (redraw tone : Bool), s.fault = none → s.CycleNext → step s = .next t →
    t.result = some (.ok redraw tone) →
    (redraw = true ↔ s.Runs .cls ∨ ∃ x y n, s.Runs (.drw x y n)) ∧ (tone = true ↔ t.ST.toNat > 0)

/-- CALL followed immediately by RET comes back to the address after the CALL, with `sp`, `I`, the registers and the
framebuffer as they were (R129, R120, R122; 95_test_vectors.md A2). -/
def Obligations.CallThenRetComesBack : Prop :=
  ∀ (nnn : Word) (s t : State), s.fault = none → LegalPc (s.pc.toNat + 2) → exec (.call nnn) s = .next t →
    t.fault = none →
    ∃ u, exec .ret t = .next u ∧ u.fault = none ∧ u.pc.toNat = s.pc.toNat + 2 ∧ u.sp = s.sp ∧ SameV s u ∧
      SameI s u ∧ SameFb s u ∧ SameMem s u

/-- A dump followed by a load of as many registers, whatever the registers became in between, restores them
(R164, R165). -/
def Obligations.DumpThenLoadRestoresRegisters : Prop :=
  ∀ (x : Reg) (s t u : State) (regs : Vector Byte 16), s.mem.wf = true → s.fault = none →
    exec (.ldMemVx x) s = .next t → t.fault = none →
    exec (.ldVxMem x) { t with V := regs } = .next u → u.fault = none →
    ∀ r : Reg, u.V[r] = if r ≤ x then s.V[r] else regs[r]

/-- A store is seen by the next fetch: when a dump overwrites the word that the next cycle fetches, that cycle fetches
the registers stored there (20_memory.md R61, an inference of the spec from R59). -/
def Obligations.StoresAreSeenByTheNextFetch : Prop :=
  ∀ (x a : Reg) (s t : State), s.mem.wf = true → s.fault = none → exec (.ldMemVx x) s = .next t → t.fault = none →
    a < x → t.pc.toNat = s.I.toNat + a.val →
    ∃ op, t.fetch = .ok op ∧ ∀ b : Reg, b.val = a.val + 1 → op.toNat = (s.V[a]).toNat * 256 + (s.V[b]).toNat

/-! ## Reset, load, and the invariant -/

/-- `Reset`, at any time, halted or not: every element at R240's value (the zeros other than the framebuffer's and
`sp`'s are the spec's decision D12, the font bytes its default `FONT`: notes/assumptions/5.md and 6.md). -/
def Obligations.ResetLeavesTheResetValues : Prop :=
  ∀ (s : State) (rest : List HostRequest), s.requests = .reset :: rest →
    ∃ t, step s = .next t ∧ t.pc.toNat = 0x200 ∧ t.sp.val = 0 ∧ t.I.toNat = 0 ∧ t.DT.toNat = 0 ∧ t.ST.toNat = 0 ∧
      t.fault = none ∧ (∀ r : Reg, (t.V[r]).toNat = 0) ∧ (∀ k : Fin 16, (t.stack[k]).toNat = 0) ∧
      (∀ px py, t.fb.pixel px py = false) ∧
      (∀ d j : Nat, d < 16 → j < 5 → t.mem.read (5 * d + j) = (fontGlyphs.getD d []).getD j 0) ∧
      (∀ a, 80 ≤ a → (t.mem.read a).toNat = 0)

/-- `Load(bytes)`: the font at 0x000, the first 3584 bytes at 0x200, the rest dropped, every other byte and every
register as it was (R63; the details are the spec's decision D27, notes/assumptions/17.md). -/
def Obligations.LoadWritesFontAndProgramOnly : Prop :=
  ∀ (s : State) (bytes : List Byte) (rest : List HostRequest), s.mem.wf = true → s.requests = .load bytes :: rest →
    ∃ t, step s = .next t ∧ t.pc = s.pc ∧ t.fault = s.fault ∧ SameV s t ∧ SameI s t ∧ SameStack s t ∧
      SameTimers s t ∧ SameFb s t ∧
      (∀ a, a < 80 → t.mem.read a = fontBytes.getD a 0) ∧
      (∀ j, j < bytes.length → j < 3584 → t.mem.read (0x200 + j) = bytes.getD j 0) ∧
      (∀ a, 80 ≤ a → (a < 0x200 ∨ 0x200 + min bytes.length 3584 ≤ a) → t.mem.read a = s.mem.read a)

/-- The invariant holds right after reset. -/
def Obligations.ResetMeetsTheInvariant : Prop := State.reset.Inv

/-- Every step keeps the invariant: memory canonical, `pc` in 0x200 to 0xFFF, return addresses in range, the answer in
agreement with the latch and with `ST` (R24, R25, R29, R106). -/
def Obligations.EveryStepKeepsTheInvariant : Prop :=
  ∀ s t : State, s.Inv → step s = .next t → t.Inv

/-- With the invariant, a step never raises AddressingFault from RET but for a return address of 0x1000, which only a
CALL at 0xFFE stores (R120, an inference of the spec). -/
def Obligations.RetFaultsOnlyOnTheTopReturnAddress : Prop :=
  ∀ s t : State, s.Inv → s.Runs .ret → step s = .next t → t.fault = some .addressing →
    ∃ k : Fin 16, s.sp.val = k.val + 1 ∧ (s.stack[k]).toNat = 0x1000
end

