-- ==== Sys2Proof/Laws/Decode.lean ====
section
/-! SUPPORT. Fields and words as numbers: what each field of a word is, and what word the fields make. -/

namespace Sys2Proof

theorem nibbleOfReg_toNat (r : Reg) : (nibbleOfReg r).toNat = r.val := by
  simp only [nibbleOfReg, BitVec.toNat_ofNat]; omega

@[simp] theorem regOfNibble_nibbleOfReg (r : Reg) : regOfNibble (nibbleOfReg r) = r :=
  Fin.ext (nibbleOfReg_toNat r)

@[simp] theorem nibbleOfReg_regOfNibble (b : BitVec 4) : nibbleOfReg (regOfNibble b) = b := by
  apply BitVec.eq_of_toNat_eq
  rw [nibbleOfReg_toNat]; rfl

theorem append_toNat {n m : Nat} (a : BitVec n) (b : BitVec m) : (a ++ b).toNat = a.toNat * 2 ^ m + b.toNat := by
  rw [BitVec.toNat_append, ← Nat.shiftLeft_add_eq_or_of_lt b.isLt, Nat.shiftLeft_eq]

/-! ## The fields as numbers (R81) -/

theorem opFam_toNat (op : Word) : (opFam op).toNat = op.toNat / 4096 := by
  simp only [opFam, BitVec.extractLsb'_toNat, Nat.shiftRight_eq_div_pow]; omega

theorem opNNN_toNat (op : Word) : (opNNN op).toNat = op.toNat % 4096 := by
  simp only [opNNN, BitVec.toNat_setWidth, BitVec.extractLsb'_toNat, Nat.shiftRight_eq_div_pow]; omega

theorem opX_val (op : Word) : (opX op).val = op.toNat / 256 % 16 := by
  simp only [opX, regOfNibble, BitVec.extractLsb'_toNat, Nat.shiftRight_eq_div_pow]

theorem opY_val (op : Word) : (opY op).val = op.toNat / 16 % 16 := by
  simp only [opY, regOfNibble, BitVec.extractLsb'_toNat, Nat.shiftRight_eq_div_pow]

theorem opKK_toNat (op : Word) : (opKK op).toNat = op.toNat % 256 := by
  simp only [opKK, BitVec.extractLsb'_toNat, Nat.shiftRight_eq_div_pow]; omega

theorem opN_toNat (op : Word) : (opN op).toNat = op.toNat % 16 := by
  simp only [opN, BitVec.extractLsb'_toNat, Nat.shiftRight_eq_div_pow]; omega

/-! ## The words as numbers (R82) -/

theorem wordNNN_toNat (f : BitVec 4) (a : Word) : (wordNNN f a).toNat = f.toNat * 4096 + a.toNat % 4096 := by
  simp only [wordNNN, append_toNat, BitVec.toNat_setWidth]; omega

theorem wordXKK_toNat (f : BitVec 4) (x : Reg) (kk : Byte) :
    (wordXKK f x kk).toNat = f.toNat * 4096 + x.val * 256 + kk.toNat := by
  simp only [wordXKK, append_toNat, nibbleOfReg_toNat]; omega

theorem wordXYN_toNat (f : BitVec 4) (x y : Reg) (n : BitVec 4) :
    (wordXYN f x y n).toNat = f.toNat * 4096 + x.val * 256 + y.val * 16 + n.toNat := by
  simp only [wordXYN, append_toNat, nibbleOfReg_toNat]; omega

theorem joinBytes_toNat (hi lo : Byte) : (joinBytes hi lo).toNat = hi.toNat * 256 + lo.toNat := by
  simp only [joinBytes, append_toNat]; omega

/-! ## The fields of each format -/

@[simp] theorem opFam_wordNNN (f : BitVec 4) (a : Word) : opFam (wordNNN f a) = f := by
  apply BitVec.eq_of_toNat_eq; rw [opFam_toNat, wordNNN_toNat]; omega

theorem opNNN_wordNNN (f : BitVec 4) (a : Word) (h : a.toNat ≤ 0xFFF) : opNNN (wordNNN f a) = a := by
  apply BitVec.eq_of_toNat_eq; rw [opNNN_toNat, wordNNN_toNat]; omega

@[simp] theorem opFam_wordXKK (f : BitVec 4) (x : Reg) (kk : Byte) : opFam (wordXKK f x kk) = f := by
  apply BitVec.eq_of_toNat_eq; rw [opFam_toNat, wordXKK_toNat]; omega

@[simp] theorem opX_wordXKK (f : BitVec 4) (x : Reg) (kk : Byte) : opX (wordXKK f x kk) = x := by
  apply Fin.ext; rw [opX_val, wordXKK_toNat]; omega

@[simp] theorem opKK_wordXKK (f : BitVec 4) (x : Reg) (kk : Byte) : opKK (wordXKK f x kk) = kk := by
  apply BitVec.eq_of_toNat_eq; rw [opKK_toNat, wordXKK_toNat]; omega

@[simp] theorem opFam_wordXYN (f : BitVec 4) (x y : Reg) (n : BitVec 4) : opFam (wordXYN f x y n) = f := by
  apply BitVec.eq_of_toNat_eq; rw [opFam_toNat, wordXYN_toNat]; omega

@[simp] theorem opX_wordXYN (f : BitVec 4) (x y : Reg) (n : BitVec 4) : opX (wordXYN f x y n) = x := by
  apply Fin.ext; rw [opX_val, wordXYN_toNat]; omega

@[simp] theorem opY_wordXYN (f : BitVec 4) (x y : Reg) (n : BitVec 4) : opY (wordXYN f x y n) = y := by
  apply Fin.ext; rw [opY_val, wordXYN_toNat]; omega

@[simp] theorem opN_wordXYN (f : BitVec 4) (x y : Reg) (n : BitVec 4) : opN (wordXYN f x y n) = n := by
  apply BitVec.eq_of_toNat_eq; rw [opN_toNat, wordXYN_toNat]; omega

/-! ## The word a set of fields came from -/

theorem wordNNN_fields (op : Word) : wordNNN (opFam op) (opNNN op) = op := by
  apply BitVec.eq_of_toNat_eq; rw [wordNNN_toNat, opFam_toNat, opNNN_toNat]; omega

theorem wordXKK_fields (op : Word) : wordXKK (opFam op) (opX op) (opKK op) = op := by
  apply BitVec.eq_of_toNat_eq; rw [wordXKK_toNat, opFam_toNat, opX_val, opKK_toNat]; omega

theorem wordXYN_fields (op : Word) : wordXYN (opFam op) (opX op) (opY op) (opN op) = op := by
  apply BitVec.eq_of_toNat_eq; rw [wordXYN_toNat, opFam_toNat, opX_val, opY_val, opN_toNat]; omega

/-! ## Masks as fields (R84's three masks) -/

theorem and_ones4 (b : BitVec 4) : b &&& 15#4 = b := BitVec.and_allOnes

theorem and_ones8 (b : BitVec 8) : b &&& 255#8 = b := BitVec.and_allOnes

theorem and_F000 (op : Word) : op &&& 0xF000#16 = wordNNN (opFam op) 0 := by
  rw [← wordNNN_fields op]
  simp only [opFam_wordNNN]
  show (opFam op ++ (opNNN op).setWidth 12) &&& (0xF#4 ++ 0#12) = _
  rw [BitVec.and_append]
  simp [wordNNN, and_ones4]

theorem and_F0FF (op : Word) : op &&& 0xF0FF#16 = wordXKK (opFam op) 0 (opKK op) := by
  conv_lhs => rw [← wordXKK_fields op]
  show (opFam op ++ nibbleOfReg (opX op) ++ opKK op) &&& (0xF#4 ++ 0#4 ++ 0xFF#8) = _
  rw [BitVec.and_append, BitVec.and_append]
  simp [wordXKK, nibbleOfReg, and_ones4, and_ones8]

theorem and_F00F (op : Word) : op &&& 0xF00F#16 = wordXYN (opFam op) 0 0 (opN op) := by
  conv_lhs => rw [← wordXYN_fields op]
  show (opFam op ++ nibbleOfReg (opX op) ++ nibbleOfReg (opY op) ++ opN op) &&& (0xF#4 ++ 0#4 ++ 0#4 ++ 0xF#4) = wordXYN (opFam op) 0 0 (opN op)
  rw [BitVec.and_append, BitVec.and_append, BitVec.and_append]
  simp [wordXYN, nibbleOfReg, and_ones4]

theorem wordNNN_and_F000 (f : BitVec 4) (a : Word) : wordNNN f a &&& 0xF000#16 = wordNNN f 0 := by
  rw [and_F000, opFam_wordNNN]

theorem wordXKK_and_F000 (f : BitVec 4) (x : Reg) (kk : Byte) : wordXKK f x kk &&& 0xF000#16 = wordNNN f 0 := by
  rw [and_F000, opFam_wordXKK]

theorem wordXKK_and_F0FF (f : BitVec 4) (x : Reg) (kk : Byte) : wordXKK f x kk &&& 0xF0FF#16 = wordXKK f 0 kk := by
  rw [and_F0FF, opFam_wordXKK, opKK_wordXKK]

theorem wordXYN_and_F00F (f : BitVec 4) (x y : Reg) (n : BitVec 4) : wordXYN f x y n &&& 0xF00F#16 = wordXYN f 0 0 n := by
  rw [and_F00F, opFam_wordXYN, opN_wordXYN]

theorem wordXYN_and_F000 (f : BitVec 4) (x y : Reg) (n : BitVec 4) : wordXYN f x y n &&& 0xF000#16 = wordNNN f 0 := by
  rw [and_F000, opFam_wordXYN]

end Sys2Proof
end

