-- ==== Sys2Proof/Laws/Display.lean ====
section
/-! SUPPORT. Pixels read and written, and what the sprite engine does to every pixel: a sprite of at most 32 rows flips
exactly the pixels under its 1 bits (44_display.md R181, "No self-overlap"). -/

namespace Sys2Proof.Machine

/-! ## One pixel -/

@[simp] theorem Framebuffer.pixel_blank (px : Fin 64) (py : Fin 32) : Framebuffer.blank.pixel px py = false := by
  simp [Framebuffer.blank, Framebuffer.pixel]

@[simp] theorem Framebuffer.pixel_setPixel_same (fb : Framebuffer) (px : Fin 64) (py : Fin 32) (b : Bool) :
    (fb.setPixel px py b).pixel px py = b := by
  simp [Framebuffer.setPixel, Framebuffer.pixel]

theorem Framebuffer.pixel_setPixel_other (fb : Framebuffer) {px qx : Fin 64} {py qy : Fin 32} (b : Bool)
    (h : ¬ (qx = px ∧ qy = py)) : (fb.setPixel px py b).pixel qx qy = fb.pixel qx qy := by
  simp only [Framebuffer.setPixel, Framebuffer.pixel, Fin.getElem_fin, Vector.getElem_set]
  by_cases hx : px.val = qx.val
  · have hx' : px = qx := Fin.ext hx
    have hy : ¬ py.val = qy.val := fun hy => h ⟨hx'.symm, (Fin.ext hy).symm⟩
    subst hx'
    simp [hy]
  · simp [hx]

/-! ## One sprite bit, one row, all rows -/

/-- Pixel `(px, py)` lies under a 1 bit of byte `b` in row `row`, in one of the columns `cols`. -/
def LitInRow (vx vy row : Nat) (b : Byte) (cols : List Nat) (px : Fin 64) (py : Fin 32) : Prop :=
  ∃ col ∈ cols, spriteBit b col = true ∧ px = pixelColumn vx col ∧ py = pixelRow vy row

/-- Pixel `(px, py)` lies under a 1 bit of the sprite bytes `bs`, the first of them in row `row`. -/
def Lit (vx vy row : Nat) (bs : List Byte) (px : Fin 64) (py : Fin 32) : Prop :=
  ∃ j col, ∃ h : j < bs.length, col < 8 ∧ spriteBit bs[j] col = true ∧ px = pixelColumn vx col ∧
    py = pixelRow vy (row + j)

theorem pixelColumn_inj {vx c c' : Nat} (hc : c < 64) (hc' : c' < 64) (h : pixelColumn vx c = pixelColumn vx c') :
    c = c' := by
  simp only [pixelColumn, Fin.mk.injEq] at h; omega

theorem pixelRow_inj {vy r j : Nat} (hj : j < 32) (h : pixelRow vy r = pixelRow vy (r + j)) : j = 0 := by
  simp only [pixelRow, Fin.mk.injEq] at h; omega

/-- One bit flips its own pixel if it is 1, and nothing else. -/
theorem drawBit_pixel (vx vy row : Nat) (b : Byte) (d : Drawing) (col : Nat) (px : Fin 64) (py : Fin 32) :
    (drawBit vx vy row b d col).fb.pixel px py ≠ d.fb.pixel px py ↔
      spriteBit b col = true ∧ px = pixelColumn vx col ∧ py = pixelRow vy row := by
  unfold drawBit
  by_cases hb : spriteBit b col = true
  · by_cases hp : px = pixelColumn vx col ∧ py = pixelRow vy row
    · obtain ⟨rfl, rfl⟩ := hp; simp [hb]
    · simp only [hb, if_true, Framebuffer.pixel_setPixel_other _ _ hp]
      simpa using hp
  · simp [hb]

/-- One bit collides if it is 1 over a pixel that is 1. -/
theorem drawBit_collision (vx vy row : Nat) (b : Byte) (d : Drawing) (col : Nat) :
    (drawBit vx vy row b d col).collision = true ↔
      d.collision = true ∨
        (spriteBit b col = true ∧ d.fb.pixel (pixelColumn vx col) (pixelRow vy row) = true) := by
  unfold drawBit
  by_cases hb : spriteBit b col = true <;> simp [hb]

/-- Two changes that never meet add up. -/
theorem change_trans {a b c : Bool} {p q : Prop} (hab : b ≠ a ↔ p) (hbc : c ≠ b ↔ q) (hpq : ¬ (p ∧ q)) :
    c ≠ a ↔ p ∨ q := by
  rw [← hab, ← hbc] at *
  cases a <;> cases b <;> cases c <;> simp_all

theorem foldl_drawBit_pixel (vx vy row : Nat) (b : Byte) (px : Fin 64) (py : Fin 32) :
    ∀ (cols : List Nat) (d : Drawing), cols.Nodup → (∀ c ∈ cols, c < 64) →
      ((cols.foldl (drawBit vx vy row b) d).fb.pixel px py ≠ d.fb.pixel px py ↔ LitInRow vx vy row b cols px py)
  | [], d, _, _ => by simp [LitInRow]
  | c :: cs, d, hn, hlt => by
    have hn' := List.nodup_cons.mp hn
    have ih := foldl_drawBit_pixel vx vy row b px py cs (drawBit vx vy row b d c) hn'.2
      (fun c' h => hlt c' (List.mem_cons_of_mem _ h))
    rw [List.foldl_cons]
    refine (change_trans (drawBit_pixel vx vy row b d c px py) ih ?_).trans ?_
    · rintro ⟨⟨_, hx, _⟩, c', hc', _, hx', _⟩
      have := pixelColumn_inj (hlt c List.mem_cons_self) (hlt c' (List.mem_cons_of_mem _ hc')) (hx.symm.trans hx')
      exact hn'.1 (this ▸ hc')
    · simp [LitInRow]

theorem foldl_drawBit_collision (vx vy row : Nat) (b : Byte) :
    ∀ (cols : List Nat) (d : Drawing), cols.Nodup → (∀ c ∈ cols, c < 64) →
      ((cols.foldl (drawBit vx vy row b) d).collision = true ↔
        d.collision = true ∨ ∃ px py, LitInRow vx vy row b cols px py ∧ d.fb.pixel px py = true)
  | [], d, _, _ => by simp [LitInRow]
  | c :: cs, d, hn, hlt => by
    have hn' := List.nodup_cons.mp hn
    have ih := foldl_drawBit_collision vx vy row b cs (drawBit vx vy row b d c) hn'.2
      (fun c' h => hlt c' (List.mem_cons_of_mem _ h))
    rw [List.foldl_cons, ih, drawBit_collision]
    have key : ∀ px py, LitInRow vx vy row b cs px py →
        (drawBit vx vy row b d c).fb.pixel px py = d.fb.pixel px py := by
      rintro px py ⟨c', hc', _, hx', _⟩
      by_contra hne
      obtain ⟨_, hx, _⟩ := (drawBit_pixel vx vy row b d c px py).mp hne
      have := pixelColumn_inj (hlt c List.mem_cons_self) (hlt c' (List.mem_cons_of_mem _ hc')) (hx.symm.trans hx')
      exact hn'.1 (this ▸ hc')
    constructor
    · rintro ((h | ⟨hb, hp⟩) | ⟨px, py, hl, hp⟩)
      · exact .inl h
      · exact .inr ⟨_, _, ⟨c, List.mem_cons_self, hb, rfl, rfl⟩, hp⟩
      · obtain ⟨c', hc', h'⟩ := id hl
        exact .inr ⟨px, py, ⟨c', List.mem_cons_of_mem _ hc', h'⟩, key px py hl ▸ hp⟩
    · rintro (h | ⟨px, py, ⟨c', hc', hb, rfl, rfl⟩, hp⟩)
      · exact .inl (.inl h)
      · rcases List.mem_cons.mp hc' with rfl | hc'
        · exact .inl (.inr ⟨hb, hp⟩)
        · have hl : LitInRow vx vy row b cs (pixelColumn vx c') (pixelRow vy row) := ⟨c', hc', hb, rfl, rfl⟩
          exact .inr ⟨_, _, hl, (key _ _ hl).symm ▸ hp⟩

theorem litInRow_range (vx vy row : Nat) (b : Byte) (px : Fin 64) (py : Fin 32) :
    LitInRow vx vy row b (List.range 8) px py ↔
      ∃ col, col < 8 ∧ spriteBit b col = true ∧ px = pixelColumn vx col ∧ py = pixelRow vy row := by
  simp [LitInRow, List.mem_range]

theorem drawRow_pixel (vx vy row : Nat) (b : Byte) (d : Drawing) (px : Fin 64) (py : Fin 32) :
    (drawRow vx vy row b d).fb.pixel px py ≠ d.fb.pixel px py ↔ LitInRow vx vy row b (List.range 8) px py :=
  foldl_drawBit_pixel vx vy row b px py _ d List.nodup_range (fun c h => by have := List.mem_range.mp h; omega)

theorem drawRow_collision (vx vy row : Nat) (b : Byte) (d : Drawing) :
    (drawRow vx vy row b d).collision = true ↔
      d.collision = true ∨ ∃ px py, LitInRow vx vy row b (List.range 8) px py ∧ d.fb.pixel px py = true :=
  foldl_drawBit_collision vx vy row b _ d List.nodup_range (fun c h => by have := List.mem_range.mp h; omega)

theorem lit_cons (vx vy row : Nat) (b : Byte) (bs : List Byte) (px : Fin 64) (py : Fin 32) :
    Lit vx vy row (b :: bs) px py ↔ LitInRow vx vy row b (List.range 8) px py ∨ Lit vx vy (row + 1) bs px py := by
  rw [litInRow_range]
  constructor
  · rintro ⟨j, col, h, hc, hb, hx, hy⟩
    cases j with
    | zero => exact .inl ⟨col, hc, hb, hx, hy⟩
    | succ j => exact .inr ⟨j, col, by simpa using h, hc, hb, hx, by rw [hy]; congr 1; omega⟩
  · rintro (⟨col, hc, hb, hx, hy⟩ | ⟨j, col, h, hc, hb, hx, hy⟩)
    · exact ⟨0, col, by simp, hc, hb, hx, hy⟩
    · exact ⟨j + 1, col, by simpa using h, hc, hb, hx, by rw [hy]; congr 1; omega⟩

/-- Rows of a sprite of at most 32 rows do not meet. -/
theorem lit_rows_disjoint {vx vy row : Nat} {b : Byte} {bs : List Byte} {px : Fin 64} {py : Fin 32}
    (hlen : bs.length + 1 ≤ 32) :
    ¬ (LitInRow vx vy row b (List.range 8) px py ∧ Lit vx vy (row + 1) bs px py) := by
  rintro ⟨⟨_, _, _, _, hy⟩, j, _, hj, _, _, _, hy'⟩
  have h : pixelRow vy row = pixelRow vy (row + (1 + j)) := by rw [← hy, hy']; congr 1; omega
  have := pixelRow_inj (by omega) h
  omega

/-- The rows of a sprite flip exactly the pixels under its 1 bits. -/
theorem drawRows_pixel (vx vy : Nat) (px : Fin 64) (py : Fin 32) :
    ∀ (bs : List Byte) (row : Nat) (d : Drawing), bs.length ≤ 32 →
      ((drawRows vx vy row bs d).fb.pixel px py ≠ d.fb.pixel px py ↔ Lit vx vy row bs px py)
  | [], row, d, _ => by simp [drawRows, Lit]
  | b :: bs, row, d, hlen => by
    simp only [List.length_cons] at hlen
    have ih := drawRows_pixel vx vy px py bs (row + 1) (drawRow vx vy row b d) (by omega)
    rw [drawRows, lit_cons]
    exact change_trans (drawRow_pixel vx vy row b d px py) ih (lit_rows_disjoint hlen)

/-- The rows of a sprite collide exactly where a 1 bit falls on a pixel that was 1 before them. -/
theorem drawRows_collision (vx vy : Nat) :
    ∀ (bs : List Byte) (row : Nat) (d : Drawing), bs.length ≤ 32 →
      ((drawRows vx vy row bs d).collision = true ↔
        d.collision = true ∨ ∃ px py, Lit vx vy row bs px py ∧ d.fb.pixel px py = true)
  | [], row, d, _ => by simp [drawRows, Lit]
  | b :: bs, row, d, hlen => by
    simp only [List.length_cons] at hlen
    rw [drawRows, drawRows_collision vx vy bs (row + 1) (drawRow vx vy row b d) (by omega), drawRow_collision]
    have key : ∀ px py, Lit vx vy (row + 1) bs px py →
        (drawRow vx vy row b d).fb.pixel px py = d.fb.pixel px py := by
      intro px py hl
      by_contra hne
      exact lit_rows_disjoint hlen ⟨(drawRow_pixel vx vy row b d px py).mp hne, hl⟩
    constructor
    · rintro ((h | ⟨px, py, hl, hp⟩) | ⟨px, py, hl, hp⟩)
      · exact .inl h
      · exact .inr ⟨px, py, (lit_cons ..).mpr (.inl hl), hp⟩
      · exact .inr ⟨px, py, (lit_cons ..).mpr (.inr hl), key px py hl ▸ hp⟩
    · rintro (h | ⟨px, py, hl, hp⟩)
      · exact .inl (.inl h)
      · rcases (lit_cons ..).mp hl with hl | hl
        · exact .inl (.inr ⟨px, py, hl, hp⟩)
        · exact .inr ⟨px, py, hl, (key px py hl).symm ▸ hp⟩

/-- What the sprite engine draws (R181): a pixel changes exactly when it lies under a 1 bit. -/
theorem drawSprite_pixel (vx vy : Nat) (bs : List Byte) (fb : Framebuffer) (px : Fin 64) (py : Fin 32)
    (hlen : bs.length ≤ 32) :
    (drawSprite vx vy bs fb).fb.pixel px py ≠ fb.pixel px py ↔ Lit vx vy 0 bs px py :=
  drawRows_pixel vx vy px py bs 0 _ hlen

/-- When the sprite engine reports a collision (R181): a 1 bit over a pixel that was 1. -/
theorem drawSprite_collision (vx vy : Nat) (bs : List Byte) (fb : Framebuffer) (hlen : bs.length ≤ 32) :
    (drawSprite vx vy bs fb).collision = true ↔ ∃ px py, Lit vx vy 0 bs px py ∧ fb.pixel px py = true := by
  rw [drawSprite, drawRows_collision vx vy bs 0 _ hlen]
  simp

end Sys2Proof.Machine
end

