-- ==== Sys2Proof/Laws/Memory.lean ====
section
/-! SUPPORT. What reading and writing memory do, and that every write keeps the canonical form. -/

namespace Sys2Proof.Machine

/-! ## Canonical form -/

theorem Memory.wfFrom_mono {lo lo' : Nat} (h : lo' ≤ lo) : ∀ {m : Memory}, m.wfFrom lo = true → m.wfFrom lo' = true
  | [], _ => rfl
  | (a, v) :: rest, hm => by
    simp only [Memory.wfFrom, Bool.and_eq_true, decide_eq_true_eq] at hm ⊢
    exact ⟨⟨⟨by omega, hm.1.1.2⟩, hm.1.2⟩, hm.2⟩

/-- An address below all listed ones reads as reset leaves it. -/
theorem Memory.read_of_wfFrom {m : Memory} : ∀ {lo a : Nat}, m.wfFrom lo = true → a < lo → m.read a = resetByte a := by
  induction m with
  | nil => intros; rfl
  | cons e rest ih =>
    obtain ⟨b, w⟩ := e
    intro lo a hm ha
    simp only [Memory.wfFrom, Bool.and_eq_true, decide_eq_true_eq] at hm
    have hne : b ≠ a := by omega
    simp only [Memory.read, if_neg hne]
    exact ih hm.2 (by omega)

/-- A write inside memory keeps the canonical form. -/
theorem Memory.wfFrom_write {m : Memory} {a : Nat} (v : Byte) (ha : a < Config.memSize) :
    ∀ {lo : Nat}, m.wfFrom lo = true → lo ≤ a → (m.write a v).wfFrom lo = true := by
  induction m with
  | nil =>
    intro lo _ hlo
    by_cases hv : v = resetByte a
    · simp [Memory.write, hv, Memory.wfFrom]
    · simp only [Memory.write, if_neg hv, Memory.wfFrom, Bool.and_eq_true, decide_eq_true_eq]
      exact ⟨⟨⟨hlo, ha⟩, hv⟩, trivial⟩
  | cons e rest ih =>
    obtain ⟨b, w⟩ := e
    intro lo hm hlo
    simp only [Memory.wfFrom, Bool.and_eq_true, decide_eq_true_eq] at hm
    obtain ⟨⟨⟨hb, hbm⟩, hw⟩, hrest⟩ := hm
    simp only [Memory.write]
    split
    next hlt =>
      simp only [Memory.wfFrom, Bool.and_eq_true, decide_eq_true_eq]
      exact ⟨⟨⟨hb, hbm⟩, hw⟩, ih hrest hlt⟩
    next hge =>
      split
      next heq =>
        subst heq
        split
        · exact Memory.wfFrom_mono (by omega) hrest
        next hv =>
          simp only [Memory.wfFrom, Bool.and_eq_true, decide_eq_true_eq]
          exact ⟨⟨⟨hb, hbm⟩, hv⟩, hrest⟩
      next hne =>
        split
        · simp only [Memory.wfFrom, Bool.and_eq_true, decide_eq_true_eq]
          exact ⟨⟨⟨hb, hbm⟩, hw⟩, hrest⟩
        next hv =>
          simp only [Memory.wfFrom, Bool.and_eq_true, decide_eq_true_eq]
          exact ⟨⟨⟨hlo, ha⟩, hv⟩, ⟨⟨by omega, hbm⟩, hw⟩, hrest⟩

theorem Memory.wf_write {m : Memory} {a : Nat} (v : Byte) (hm : m.wf = true) (ha : a < Config.memSize) :
    (m.write a v).wf = true :=
  Memory.wfFrom_write v ha hm (Nat.zero_le a)

/-- Storing bytes inside memory keeps the canonical form. -/
theorem Memory.wf_writeSpan {bs : List Byte} : ∀ {m : Memory} {base : Nat}, m.wf = true →
    base + bs.length ≤ Config.memSize → (m.writeSpan base bs).wf = true := by
  induction bs with
  | nil => intro m base hm _; exact hm
  | cons v vs ih =>
    intro m base hm hb
    simp only [List.length_cons] at hb
    exact ih (Memory.wf_write v hm (by omega)) (by omega)

theorem fontBytes_length : fontBytes.length = Config.fontSize := by decide

/-- `Load` keeps the canonical form. -/
theorem Memory.wf_load {m : Memory} (bytes : List Byte) (hm : m.wf = true) : (m.load bytes).wf = true := by
  refine Memory.wf_writeSpan (Memory.wf_writeSpan hm ?_) ?_
  · rw [fontBytes_length]; decide
  · have : (bytes.take Config.maxProg).length ≤ 3584 := by simp
    simp only [Config.progBase, Config.memSize]
    omega

/-! ## Read after write -/

/-- A write leaves every other address alone. -/
theorem Memory.read_write_other {m : Memory} {a a' : Nat} (v : Byte) (h : a' ≠ a) :
    (m.write a v).read a' = m.read a' := by
  have h' : a ≠ a' := Ne.symm h
  induction m with
  | nil =>
    simp only [Memory.write]
    split <;> simp [Memory.read, h']
  | cons e rest ih =>
    obtain ⟨b, w⟩ := e
    simp only [Memory.write]
    split
    · simp only [Memory.read, ih]
    · split
      next heq =>
        subst heq
        split <;> simp [Memory.read, h']
      · split <;> simp [Memory.read, h']

/-- A read of the address written gives the value written. -/
theorem Memory.read_write_same {m : Memory} {a : Nat} (v : Byte) :
    ∀ {lo : Nat}, m.wfFrom lo = true → (m.write a v).read a = v := by
  induction m with
  | nil =>
    intro lo _
    simp only [Memory.write]
    split <;> simp_all [Memory.read]
  | cons e rest ih =>
    obtain ⟨b, w⟩ := e
    intro lo hm
    simp only [Memory.wfFrom, Bool.and_eq_true, decide_eq_true_eq] at hm
    simp only [Memory.write]
    split
    next hlt =>
      have hne : b ≠ a := by omega
      simp only [Memory.read, if_neg hne]
      exact ih hm.2
    · split
      next heq =>
        subst heq
        split
        next hv => rw [hv]; exact Memory.read_of_wfFrom hm.2 (by omega)
        · simp [Memory.read]
      next hge hne =>
        split
        next hv =>
          simp only [Memory.read, if_neg hne]
          rw [hv]
          exact Memory.read_of_wfFrom (lo := b + 1) hm.2 (by omega)
        · simp [Memory.read]

/-- Storing bytes leaves every address outside them alone. -/
theorem Memory.read_writeSpan_outside {bs : List Byte} : ∀ {m : Memory} {base a : Nat},
    a < base ∨ base + bs.length ≤ a → (m.writeSpan base bs).read a = m.read a := by
  induction bs with
  | nil => intros; rfl
  | cons v vs ih =>
    intro m base a h
    simp only [List.length_cons] at h
    rw [Memory.writeSpan, ih (by omega), Memory.read_write_other v (by omega)]

/-- Storing bytes puts the `j`-th one at `base + j`. -/
theorem Memory.read_writeSpan_inside {bs : List Byte} : ∀ {m : Memory} {base j : Nat}, m.wf = true →
    base + bs.length ≤ Config.memSize → (h : j < bs.length) → (m.writeSpan base bs).read (base + j) = bs[j] := by
  induction bs with
  | nil => intro m base j _ _ h; simp at h
  | cons v vs ih =>
    intro m base j hm hb h
    simp only [List.length_cons] at hb h
    have hw : (m.write base v).wf = true := Memory.wf_write v hm (by omega)
    rw [Memory.writeSpan]
    cases j with
    | zero =>
      rw [Memory.read_writeSpan_outside (Or.inl (by omega))]
      exact Memory.read_write_same v hm
    | succ j =>
      have := ih (m := m.write base v) (base := base + 1) (j := j) hw (by omega) (by omega)
      simpa [Nat.add_assoc, Nat.add_comm 1 j] using this

/-! ## Spans -/

@[simp] theorem Memory.length_readSpan (m : Memory) : ∀ count base, (m.readSpan base count).length = count
  | 0, _ => rfl
  | n + 1, base => by simp [Memory.readSpan, Memory.length_readSpan m n]

/-- The `j`-th byte of a span is the byte at `base + j`. -/
theorem Memory.getElem_readSpan (m : Memory) : ∀ {count base j : Nat} (h : j < (m.readSpan base count).length),
    (m.readSpan base count)[j] = m.read (base + j)
  | 0, _, _, h => by simp [Memory.readSpan] at h
  | n + 1, base, 0, _ => rfl
  | n + 1, base, j + 1, h => by
    simp only [Memory.readSpan, List.getElem_cons_succ]
    rw [Memory.getElem_readSpan m]
    congr 1; omega

theorem spanInMemory_iff {base count : Nat} : spanInMemory base count = true ↔ count = 0 ∨ base + count - 1 ≤ 0xFFF := by
  simp [spanInMemory]

/-- What a checked read answers. -/
theorem memReadBytes_eq (m : Memory) (base count : Nat) :
    memReadBytes m base count = if spanInMemory base count then .ok (m.readSpan base count) else .error .addressing := rfl

/-- What a checked write answers. -/
theorem memWriteBytes_eq (m : Memory) (base : Nat) (bs : List Byte) :
    memWriteBytes m base bs = if spanInMemory base bs.length then .ok (m.writeSpan base bs) else .error .addressing := rfl

/-- A checked write keeps the canonical form. -/
theorem wf_of_memWriteBytes {m m' : Memory} {base : Nat} {bs : List Byte} (hm : m.wf = true)
    (h : memWriteBytes m base bs = .ok m') : m'.wf = true := by
  rw [memWriteBytes_eq] at h
  split at h
  next hs =>
    cases h
    rcases spanInMemory_iff.mp hs with h0 | hle
    · rw [List.length_eq_zero_iff.mp h0]; exact hm
    · exact Memory.wf_writeSpan hm (by simp only [Config.memSize]; omega)
  · cases h

end Sys2Proof.Machine
end

