-- ==== Sys2Proof/Laws/State.lean ====
section
/-! SUPPORT. One lemma for each field of each update of State, so that no later proof unfolds a record update. -/

namespace Sys2Proof.Machine.State


/-! ### writeV -/

@[simp] theorem writeV_V (s : State) (r : Reg) (v : Byte) : (s.writeV r v).V = s.V.set r v := rfl
@[simp] theorem writeV_I (s : State) (r : Reg) (v : Byte) : (s.writeV r v).I = s.I := rfl
@[simp] theorem writeV_pc (s : State) (r : Reg) (v : Byte) : (s.writeV r v).pc = s.pc := rfl
@[simp] theorem writeV_sp (s : State) (r : Reg) (v : Byte) : (s.writeV r v).sp = s.sp := rfl
@[simp] theorem writeV_stack (s : State) (r : Reg) (v : Byte) : (s.writeV r v).stack = s.stack := rfl
@[simp] theorem writeV_DT (s : State) (r : Reg) (v : Byte) : (s.writeV r v).DT = s.DT := rfl
@[simp] theorem writeV_ST (s : State) (r : Reg) (v : Byte) : (s.writeV r v).ST = s.ST := rfl
@[simp] theorem writeV_fb (s : State) (r : Reg) (v : Byte) : (s.writeV r v).fb = s.fb := rfl
@[simp] theorem writeV_mem (s : State) (r : Reg) (v : Byte) : (s.writeV r v).mem = s.mem := rfl
@[simp] theorem writeV_fault (s : State) (r : Reg) (v : Byte) : (s.writeV r v).fault = s.fault := rfl
@[simp] theorem writeV_result (s : State) (r : Reg) (v : Byte) : (s.writeV r v).result = s.result := rfl
@[simp] theorem writeV_requests (s : State) (r : Reg) (v : Byte) : (s.writeV r v).requests = s.requests := rfl
@[simp] theorem writeV_cycles (s : State) (r : Reg) (v : Byte) : (s.writeV r v).cycles = s.cycles := rfl

/-! ### writeResultAndFlag -/

@[simp] theorem writeResultAndFlag_V (s : State) (x : Reg) (v : Byte) (b : Bool) : (s.writeResultAndFlag x v b).V = (s.V.set x v).set VF (flagByte b) := rfl
@[simp] theorem writeResultAndFlag_I (s : State) (x : Reg) (v : Byte) (b : Bool) : (s.writeResultAndFlag x v b).I = s.I := rfl
@[simp] theorem writeResultAndFlag_pc (s : State) (x : Reg) (v : Byte) (b : Bool) : (s.writeResultAndFlag x v b).pc = s.pc := rfl
@[simp] theorem writeResultAndFlag_sp (s : State) (x : Reg) (v : Byte) (b : Bool) : (s.writeResultAndFlag x v b).sp = s.sp := rfl
@[simp] theorem writeResultAndFlag_stack (s : State) (x : Reg) (v : Byte) (b : Bool) : (s.writeResultAndFlag x v b).stack = s.stack := rfl
@[simp] theorem writeResultAndFlag_DT (s : State) (x : Reg) (v : Byte) (b : Bool) : (s.writeResultAndFlag x v b).DT = s.DT := rfl
@[simp] theorem writeResultAndFlag_ST (s : State) (x : Reg) (v : Byte) (b : Bool) : (s.writeResultAndFlag x v b).ST = s.ST := rfl
@[simp] theorem writeResultAndFlag_fb (s : State) (x : Reg) (v : Byte) (b : Bool) : (s.writeResultAndFlag x v b).fb = s.fb := rfl
@[simp] theorem writeResultAndFlag_mem (s : State) (x : Reg) (v : Byte) (b : Bool) : (s.writeResultAndFlag x v b).mem = s.mem := rfl
@[simp] theorem writeResultAndFlag_fault (s : State) (x : Reg) (v : Byte) (b : Bool) : (s.writeResultAndFlag x v b).fault = s.fault := rfl
@[simp] theorem writeResultAndFlag_result (s : State) (x : Reg) (v : Byte) (b : Bool) : (s.writeResultAndFlag x v b).result = s.result := rfl
@[simp] theorem writeResultAndFlag_requests (s : State) (x : Reg) (v : Byte) (b : Bool) : (s.writeResultAndFlag x v b).requests = s.requests := rfl
@[simp] theorem writeResultAndFlag_cycles (s : State) (x : Reg) (v : Byte) (b : Bool) : (s.writeResultAndFlag x v b).cycles = s.cycles := rfl

/-! ### loadRegs -/

@[simp] theorem loadRegs_V (s : State) (x : Reg) (base : Nat) : (s.loadRegs x base).V = loadedRegs s.mem s.V x base := rfl
@[simp] theorem loadRegs_I (s : State) (x : Reg) (base : Nat) : (s.loadRegs x base).I = s.I := rfl
@[simp] theorem loadRegs_pc (s : State) (x : Reg) (base : Nat) : (s.loadRegs x base).pc = s.pc := rfl
@[simp] theorem loadRegs_sp (s : State) (x : Reg) (base : Nat) : (s.loadRegs x base).sp = s.sp := rfl
@[simp] theorem loadRegs_stack (s : State) (x : Reg) (base : Nat) : (s.loadRegs x base).stack = s.stack := rfl
@[simp] theorem loadRegs_DT (s : State) (x : Reg) (base : Nat) : (s.loadRegs x base).DT = s.DT := rfl
@[simp] theorem loadRegs_ST (s : State) (x : Reg) (base : Nat) : (s.loadRegs x base).ST = s.ST := rfl
@[simp] theorem loadRegs_fb (s : State) (x : Reg) (base : Nat) : (s.loadRegs x base).fb = s.fb := rfl
@[simp] theorem loadRegs_mem (s : State) (x : Reg) (base : Nat) : (s.loadRegs x base).mem = s.mem := rfl
@[simp] theorem loadRegs_fault (s : State) (x : Reg) (base : Nat) : (s.loadRegs x base).fault = s.fault := rfl
@[simp] theorem loadRegs_result (s : State) (x : Reg) (base : Nat) : (s.loadRegs x base).result = s.result := rfl
@[simp] theorem loadRegs_requests (s : State) (x : Reg) (base : Nat) : (s.loadRegs x base).requests = s.requests := rfl
@[simp] theorem loadRegs_cycles (s : State) (x : Reg) (base : Nat) : (s.loadRegs x base).cycles = s.cycles := rfl

/-! ### drawn -/

@[simp] theorem drawn_V (s : State) (x y : Reg) (bs : List Byte) : (s.drawn x y bs).V = s.V.set VF (flagByte (drawSprite (s.readV x).toNat (s.readV y).toNat bs s.fb).collision) := rfl
@[simp] theorem drawn_I (s : State) (x y : Reg) (bs : List Byte) : (s.drawn x y bs).I = s.I := rfl
@[simp] theorem drawn_pc (s : State) (x y : Reg) (bs : List Byte) : (s.drawn x y bs).pc = s.pc := rfl
@[simp] theorem drawn_sp (s : State) (x y : Reg) (bs : List Byte) : (s.drawn x y bs).sp = s.sp := rfl
@[simp] theorem drawn_stack (s : State) (x y : Reg) (bs : List Byte) : (s.drawn x y bs).stack = s.stack := rfl
@[simp] theorem drawn_DT (s : State) (x y : Reg) (bs : List Byte) : (s.drawn x y bs).DT = s.DT := rfl
@[simp] theorem drawn_ST (s : State) (x y : Reg) (bs : List Byte) : (s.drawn x y bs).ST = s.ST := rfl
@[simp] theorem drawn_fb (s : State) (x y : Reg) (bs : List Byte) : (s.drawn x y bs).fb = (drawSprite (s.readV x).toNat (s.readV y).toNat bs s.fb).fb := rfl
@[simp] theorem drawn_mem (s : State) (x y : Reg) (bs : List Byte) : (s.drawn x y bs).mem = s.mem := rfl
@[simp] theorem drawn_fault (s : State) (x y : Reg) (bs : List Byte) : (s.drawn x y bs).fault = s.fault := rfl
@[simp] theorem drawn_result (s : State) (x y : Reg) (bs : List Byte) : (s.drawn x y bs).result = s.result := rfl
@[simp] theorem drawn_requests (s : State) (x y : Reg) (bs : List Byte) : (s.drawn x y bs).requests = s.requests := rfl
@[simp] theorem drawn_cycles (s : State) (x y : Reg) (bs : List Byte) : (s.drawn x y bs).cycles = s.cycles := rfl

/-! ### takeFault -/

@[simp] theorem takeFault_V (s : State) (k : Fault) : (s.takeFault k).V = s.V := rfl
@[simp] theorem takeFault_I (s : State) (k : Fault) : (s.takeFault k).I = s.I := rfl
@[simp] theorem takeFault_pc (s : State) (k : Fault) : (s.takeFault k).pc = s.pc := rfl
@[simp] theorem takeFault_sp (s : State) (k : Fault) : (s.takeFault k).sp = s.sp := rfl
@[simp] theorem takeFault_stack (s : State) (k : Fault) : (s.takeFault k).stack = s.stack := rfl
@[simp] theorem takeFault_DT (s : State) (k : Fault) : (s.takeFault k).DT = s.DT := rfl
@[simp] theorem takeFault_ST (s : State) (k : Fault) : (s.takeFault k).ST = s.ST := rfl
@[simp] theorem takeFault_fb (s : State) (k : Fault) : (s.takeFault k).fb = s.fb := rfl
@[simp] theorem takeFault_mem (s : State) (k : Fault) : (s.takeFault k).mem = s.mem := rfl
@[simp] theorem takeFault_fault (s : State) (k : Fault) : (s.takeFault k).fault = some k := rfl
@[simp] theorem takeFault_result (s : State) (k : Fault) : (s.takeFault k).result = some (.fault k) := rfl
@[simp] theorem takeFault_requests (s : State) (k : Fault) : (s.takeFault k).requests = s.requests.tail := rfl
@[simp] theorem takeFault_cycles (s : State) (k : Fault) : (s.takeFault k).cycles = s.cycles + 1 := rfl

/-! ### hostLoad -/

@[simp] theorem hostLoad_V (s : State) (bytes : List Byte) : (s.hostLoad bytes).V = s.V := rfl
@[simp] theorem hostLoad_I (s : State) (bytes : List Byte) : (s.hostLoad bytes).I = s.I := rfl
@[simp] theorem hostLoad_pc (s : State) (bytes : List Byte) : (s.hostLoad bytes).pc = s.pc := rfl
@[simp] theorem hostLoad_sp (s : State) (bytes : List Byte) : (s.hostLoad bytes).sp = s.sp := rfl
@[simp] theorem hostLoad_stack (s : State) (bytes : List Byte) : (s.hostLoad bytes).stack = s.stack := rfl
@[simp] theorem hostLoad_DT (s : State) (bytes : List Byte) : (s.hostLoad bytes).DT = s.DT := rfl
@[simp] theorem hostLoad_ST (s : State) (bytes : List Byte) : (s.hostLoad bytes).ST = s.ST := rfl
@[simp] theorem hostLoad_fb (s : State) (bytes : List Byte) : (s.hostLoad bytes).fb = s.fb := rfl
@[simp] theorem hostLoad_mem (s : State) (bytes : List Byte) : (s.hostLoad bytes).mem = s.mem.load bytes := rfl
@[simp] theorem hostLoad_fault (s : State) (bytes : List Byte) : (s.hostLoad bytes).fault = s.fault := rfl
@[simp] theorem hostLoad_result (s : State) (bytes : List Byte) : (s.hostLoad bytes).result = none := rfl
@[simp] theorem hostLoad_requests (s : State) (bytes : List Byte) : (s.hostLoad bytes).requests = s.requests.tail := rfl
@[simp] theorem hostLoad_cycles (s : State) (bytes : List Byte) : (s.hostLoad bytes).cycles = s.cycles := rfl

/-! ### hostReset -/

@[simp] theorem hostReset_V (s : State) : (s.hostReset).V = State.reset.V := rfl
@[simp] theorem hostReset_I (s : State) : (s.hostReset).I = State.reset.I := rfl
@[simp] theorem hostReset_pc (s : State) : (s.hostReset).pc = State.reset.pc := rfl
@[simp] theorem hostReset_sp (s : State) : (s.hostReset).sp = State.reset.sp := rfl
@[simp] theorem hostReset_stack (s : State) : (s.hostReset).stack = State.reset.stack := rfl
@[simp] theorem hostReset_DT (s : State) : (s.hostReset).DT = State.reset.DT := rfl
@[simp] theorem hostReset_ST (s : State) : (s.hostReset).ST = State.reset.ST := rfl
@[simp] theorem hostReset_fb (s : State) : (s.hostReset).fb = State.reset.fb := rfl
@[simp] theorem hostReset_mem (s : State) : (s.hostReset).mem = State.reset.mem := rfl
@[simp] theorem hostReset_fault (s : State) : (s.hostReset).fault = State.reset.fault := rfl
@[simp] theorem hostReset_result (s : State) : (s.hostReset).result = State.reset.result := rfl
@[simp] theorem hostReset_requests (s : State) : (s.hostReset).requests = s.requests.tail := rfl
@[simp] theorem hostReset_cycles (s : State) : (s.hostReset).cycles = s.cycles := rfl

@[simp] theorem readV_eq (s : State) (r : Reg) : s.readV r = s.V[r] := rfl

end Sys2Proof.Machine.State
end

