-- ==== Sys2Proof/Laws/Ops.lean ====
section
/-! SUPPORT. One lemma for each shared operation, saying everything it can do (Machine/Ops.lean, Operands.lean, Flags.lean). -/

namespace Sys2Proof.Machine

/-! ## Registers -/

theorem getElem_setV (V : Vector Byte 16) (x r : Reg) (v : Byte) : (V.set x v)[r] = if r = x then v else V[r] := by
  simp only [Fin.getElem_fin, Vector.getElem_set, Fin.ext_iff, eq_comm]

theorem State.firstRegs_length (s : State) (x : Reg) : (s.firstRegs x).length = x.val + 1 := by
  simp only [State.firstRegs, List.length_take, Vector.length_toList]; omega

theorem State.getElem_firstRegs (s : State) (x r : Reg) (h : r.val < (s.firstRegs x).length) :
    (s.firstRegs x)[r.val] = s.V[r] := by
  simp only [State.firstRegs, List.getElem_take, Vector.getElem_toList, Fin.getElem_fin]

theorem State.getElem_loadRegs (s : State) (x : Reg) (base : Nat) (r : Reg) :
    (s.loadRegs x base).V[r] = if r ≤ x then s.mem.read (base + r.val) else s.V[r] := by
  simp only [State.loadRegs, loadedRegs, Fin.getElem_fin, Vector.getElem_ofFn, Fin.le_def]

theorem flagByte_toNat (b : Bool) : (flagByte b).toNat = if b = true then 1 else 0 := by
  cases b <;> rfl

/-- What an instruction that writes its result and then the flag leaves in each register (R152). -/
theorem getElem_resultAndFlag (V : Vector Byte 16) (x r : Reg) (v : Byte) (b : Bool) :
    ((V.set x v).set VF (flagByte b))[r] = if r = VF then flagByte b else if r = x then v else V[r] := by
  rw [getElem_setV, getElem_setV]

/-! ## Operands -/

theorem addToIndex_toNat (i : Word) (v : Byte) : (addToIndex i v).toNat = (i.toNat + v.toNat) % 65536 := by
  simp [addToIndex]

theorem glyphAddress_toNat (v : Byte) : (glyphAddress v).toNat = 5 * v.toNat := by
  have := v.isLt
  simp only [glyphAddress, Config.fontBase, Config.glyphSize, BitVec.toNat_ofNat]; omega

@[simp] theorem decimalDigits_length (v : Byte) : (decimalDigits v).length = 3 := rfl

theorem lowBit_toNat (a : Byte) : (flagByte (lowBit a)).toNat = a.toNat % 2 := by
  revert a; decide

theorem highBit_toNat (a : Byte) : (flagByte (highBit a)).toNat = a.toNat / 128 := by
  revert a; decide

/-! ## Call stack -/

theorem State.push_full {s : State} {ret : Word} (h : s.sp.val = 16) : s.push ret = .error .stackOverflow := by
  simp [State.push, h]

theorem State.push_ok {s : State} {ret : Word} (h : s.sp.val < 16) :
    s.push ret = .ok { s with stack := s.stack.set s.sp.val ret, sp := ⟨s.sp.val + 1, by omega⟩ } := by
  simp [State.push, h]

theorem State.pop_empty {s : State} (h : s.sp.val = 0) : s.pop = .error .stackUnderflow := by
  simp [State.pop, h]

theorem State.pop_ok {s : State} {k : Fin 16} (h : s.sp.val = k.val + 1) :
    s.pop = .ok (s.stack[k], { s with sp := ⟨k.val, by omega⟩ }) := by
  simp [State.pop, h]

/-! ## Timers and the program counter -/

theorem tick_toNat (t : Byte) : (tick t).toNat = t.toNat - 1 := by
  unfold tick
  split
  next h => simp [h]
  next h =>
    have : t.toNat ≠ 0 := fun h' => h (BitVec.eq_of_toNat_eq h')
    rw [BitVec.toNat_sub]
    have h1 : (1 : Byte).toNat = 1 := rfl
    have := t.isLt
    omega

theorem toneOf_eq (t : Byte) : toneOf t = decide (t.toNat > 0) := rfl

theorem pcLegal_iff {a : Nat} : pcLegal a = true ↔ 0x200 ≤ a ∧ a ≤ 0xFFF := by simp [pcLegal]

/-- A legal `pc` fits the register. -/
theorem pcLegal_toNat {a : Nat} (h : pcLegal a = true) : (BitVec.ofNat 16 a).toNat = a := by
  have := pcLegal_iff.mp h
  simp only [BitVec.toNat_ofNat]; omega

/-! ## The end of a cycle -/

/-- The state a cycle leaves that raises nothing and whose new `pc` is in range. -/
def State.retired (s : State) (e : Effect) : State :=
  { e.state with
      pc := BitVec.ofNat 16 (e.ctl.target s.pc), DT := tick e.state.DT, ST := tick e.state.ST
      result := some (.ok e.redraw (toneOf (tick e.state.ST))), requests := s.requests.tail, cycles := s.cycles + 1 }

theorem State.retire_legal {s : State} {e : Effect} (h : pcLegal (e.ctl.target s.pc) = true) :
    s.retire e = s.retired e := by
  simp [State.retire, State.retired, h]

theorem State.retire_illegal {s : State} {e : Effect} (h : pcLegal (e.ctl.target s.pc) = false) :
    s.retire e = s.takeFault .addressing := by
  simp [State.retire, h]

@[simp] theorem State.retired_V (s : State) (e : Effect) : (s.retired e).V = e.state.V := rfl
@[simp] theorem State.retired_I (s : State) (e : Effect) : (s.retired e).I = e.state.I := rfl
@[simp] theorem State.retired_pc (s : State) (e : Effect) : (s.retired e).pc = BitVec.ofNat 16 (e.ctl.target s.pc) := rfl
@[simp] theorem State.retired_sp (s : State) (e : Effect) : (s.retired e).sp = e.state.sp := rfl
@[simp] theorem State.retired_stack (s : State) (e : Effect) : (s.retired e).stack = e.state.stack := rfl
@[simp] theorem State.retired_DT (s : State) (e : Effect) : (s.retired e).DT = tick e.state.DT := rfl
@[simp] theorem State.retired_ST (s : State) (e : Effect) : (s.retired e).ST = tick e.state.ST := rfl
@[simp] theorem State.retired_fb (s : State) (e : Effect) : (s.retired e).fb = e.state.fb := rfl
@[simp] theorem State.retired_mem (s : State) (e : Effect) : (s.retired e).mem = e.state.mem := rfl
@[simp] theorem State.retired_fault (s : State) (e : Effect) : (s.retired e).fault = e.state.fault := rfl
@[simp] theorem State.retired_result (s : State) (e : Effect) : (s.retired e).result = some (.ok e.redraw (toneOf (tick e.state.ST))) := rfl
@[simp] theorem State.retired_requests (s : State) (e : Effect) : (s.retired e).requests = s.requests.tail := rfl
@[simp] theorem State.retired_cycles (s : State) (e : Effect) : (s.retired e).cycles = s.cycles + 1 := rfl

/-- A cycle whose new `pc` is in range retires, and `pc` is that number. -/
theorem State.retire_in_range {s : State} {e : Effect} {a : Nat} (ha : e.ctl.target s.pc = a)
    (h : 0x200 ≤ a ∧ a ≤ 0xFFF) : s.retire e = s.retired e ∧ (s.retired e).pc.toNat = a := by
  have hl : pcLegal (e.ctl.target s.pc) = true := by rw [ha]; exact pcLegal_iff.mpr h
  refine ⟨State.retire_legal hl, ?_⟩
  rw [State.retired_pc, pcLegal_toNat hl, ha]

/-- A cycle whose new `pc` is out of range takes AddressingFault. -/
theorem State.retire_out_of_range {s : State} {e : Effect} {a : Nat} (ha : e.ctl.target s.pc = a)
    (h : ¬ (0x200 ≤ a ∧ a ≤ 0xFFF)) : s.retire e = s.takeFault .addressing :=
  State.retire_illegal (by rw [Bool.eq_false_iff, ha]; exact fun h' => h (pcLegal_iff.mp h'))

/-- Everything the end of a cycle can do: it retires an effect whose new `pc` is in range, or it takes a fault, of
the execute step or of the range check. -/
theorem State.endCycle_cases (s : State) (r : Except Fault Effect) :
    (∃ e, r = .ok e ∧ pcLegal (e.ctl.target s.pc) = true ∧ s.endCycle r = s.retired e) ∨
    (∃ e, r = .ok e ∧ pcLegal (e.ctl.target s.pc) = false ∧ s.endCycle r = s.takeFault .addressing) ∨
    (∃ k, r = .error k ∧ s.endCycle r = s.takeFault k) := by
  cases r with
  | error k => exact .inr (.inr ⟨k, rfl, rfl⟩)
  | ok e =>
    cases h : pcLegal (e.ctl.target s.pc) with
    | true => exact .inl ⟨e, rfl, h, State.retire_legal h⟩
    | false => exact .inr (.inl ⟨e, rfl, h, State.retire_illegal h⟩)

/-! ## Fetch and inputs -/

theorem State.fetch_ok {s : State} (h : s.pc.toNat < 0xFFF) :
    s.fetch = .ok (joinBytes (s.mem.read s.pc.toNat) (s.mem.read (s.pc.toNat + 1))) := by
  have : spanInMemory s.pc.toNat 2 = true := spanInMemory_iff.mpr (by omega)
  simp [State.fetch, this]

theorem State.fetch_top {s : State} (h : ¬ s.pc.toNat < 0xFFF) : s.fetch = .error .addressing := by
  have : spanInMemory s.pc.toNat 2 = false := by
    rw [Bool.eq_false_iff]; intro h'; have := spanInMemory_iff.mp h'; omega
  simp [State.fetch, this]

theorem State.input_of_request {s : State} {p : CycleInput} {rest : List HostRequest}
    (h : s.requests = .cycle p :: rest) : s.input = p := by
  simp [State.input, h]

/-- The smallest key held, if there is one (R195). -/
theorem firstKey_some {keys : Vector Bool 16} {k : Fin 16} (hk : keys[k] = true)
    (hmin : ∀ j : Fin 16, j < k → keys[j] = false) : firstKey keys = some k := by
  cases h : firstKey keys with
  | none => exact absurd (List.find?_eq_none.mp h k (List.mem_finRange k)) (by simp [hk])
  | some m =>
    obtain ⟨hm, as, bs, hl, hno⟩ := List.find?_eq_some_iff_append.mp h
    congr 1
    by_contra hne
    rcases lt_or_gt_of_ne hne with hlt | hgt
    · simp [hmin m hlt] at hm
    · have hmem : k ∈ as ++ m :: bs := hl ▸ List.mem_finRange k
      rcases List.mem_append.mp hmem with hka | hka
      · simpa [hk] using hno k hka
      · have hs : (as ++ m :: bs).Pairwise (· < ·) := by
          rw [← hl]; exact List.pairwise_lt_finRange 16
        have hs' := (List.pairwise_append.mp hs).2.1
        rcases List.mem_cons.mp hka with rfl | hkb
        · exact hne rfl
        · exact absurd ((List.pairwise_cons.mp hs').1 k hkb) (not_lt_of_gt hgt)

theorem firstKey_none {keys : Vector Bool 16} (h : ∀ k : Fin 16, keys[k] = false) : firstKey keys = none :=
  List.find?_eq_none.mpr (fun k _ => by simpa using h k)

end Sys2Proof.Machine
end

