-- ==== Sys2Proof/Laws/Exec.lean ====
section
/-! SUPPORT. One equation for each instruction: what its cycle comes to, with its execute step's effect in sight; and what
every instruction has in common. Cite these rather than unfold exec. -/

namespace Sys2Proof.Machine

/-! ## Instructions whose execute step raises nothing -/

theorem exec_cls (s : State) :
    exec (.cls) s = .next (s.retire { state := { s with fb := Framebuffer.blank }, redraw := true }) := rfl

theorem exec_jp (nnn : Word) (s : State) :
    exec (.jp nnn) s = .next (s.retire { state := s, ctl := .jump nnn.toNat }) := rfl

theorem exec_seByte (x : Reg) (kk : Byte) (s : State) :
    exec (.seByte x kk) s = .next (s.retire (skipIf (s.readV x == kk) s)) := rfl

theorem exec_sneByte (x : Reg) (kk : Byte) (s : State) :
    exec (.sneByte x kk) s = .next (s.retire (skipIf (s.readV x != kk) s)) := rfl

theorem exec_seReg (x y : Reg) (s : State) :
    exec (.seReg x y) s = .next (s.retire (skipIf (s.readV x == s.readV y) s)) := rfl

theorem exec_sneReg (x y : Reg) (s : State) :
    exec (.sneReg x y) s = .next (s.retire (skipIf (s.readV x != s.readV y) s)) := rfl

theorem exec_ldByte (x : Reg) (kk : Byte) (s : State) :
    exec (.ldByte x kk) s = .next (s.retire { state := s.writeV x kk }) := rfl

theorem exec_addByte (x : Reg) (kk : Byte) (s : State) :
    exec (.addByte x kk) s = .next (s.retire { state := s.writeV x (s.readV x + kk) }) := rfl

theorem exec_ldReg (x y : Reg) (s : State) :
    exec (.ldReg x y) s = .next (s.retire { state := s.writeV x (s.readV y) }) := rfl

theorem exec_orReg (x y : Reg) (s : State) :
    exec (.orReg x y) s = .next (s.retire { state := s.writeV x (s.readV x ||| s.readV y) }) := rfl

theorem exec_andReg (x y : Reg) (s : State) :
    exec (.andReg x y) s = .next (s.retire { state := s.writeV x (s.readV x &&& s.readV y) }) := rfl

theorem exec_xorReg (x y : Reg) (s : State) :
    exec (.xorReg x y) s = .next (s.retire { state := s.writeV x (s.readV x ^^^ s.readV y) }) := rfl

theorem exec_addReg (x y : Reg) (s : State) :
    exec (.addReg x y) s = .next (s.retire { state := s.writeResultAndFlag x (s.readV x + s.readV y) (carryOut (s.readV x) (s.readV y)) }) := rfl

theorem exec_subReg (x y : Reg) (s : State) :
    exec (.subReg x y) s = .next (s.retire { state := s.writeResultAndFlag x (s.readV x - s.readV y) (noBorrow (s.readV x) (s.readV y)) }) := rfl

theorem exec_shr (x y : Reg) (s : State) :
    exec (.shr x y) s = .next (s.retire { state := s.writeResultAndFlag x (s.readV x >>> 1) (lowBit (s.readV x)) }) := rfl

theorem exec_subnReg (x y : Reg) (s : State) :
    exec (.subnReg x y) s = .next (s.retire { state := s.writeResultAndFlag x (s.readV y - s.readV x) (noBorrow (s.readV y) (s.readV x)) }) := rfl

theorem exec_shl (x y : Reg) (s : State) :
    exec (.shl x y) s = .next (s.retire { state := s.writeResultAndFlag x (s.readV x <<< 1) (highBit (s.readV x)) }) := rfl

theorem exec_skp (x : Reg) (s : State) :
    exec (.skp x) s = .next (s.retire (skipIf (s.keyHeld (s.readV x)) s)) := rfl

theorem exec_sknp (x : Reg) (s : State) :
    exec (.sknp x) s = .next (s.retire (skipIf (!s.keyHeld (s.readV x)) s)) := rfl

theorem exec_ldI (nnn : Word) (s : State) :
    exec (.ldI nnn) s = .next (s.retire { state := { s with I := nnn } }) := rfl

theorem exec_jpV0 (nnn : Word) (s : State) :
    exec (.jpV0 nnn) s = .next (s.retire { state := s, ctl := .jump (s.offsetTarget nnn) }) := rfl

theorem exec_rnd (x : Reg) (kk : Byte) (s : State) :
    exec (.rnd x kk) s = .next (s.retire { state := s.writeV x (s.input.rand &&& kk) }) := rfl

theorem exec_ldVxDT (x : Reg) (s : State) :
    exec (.ldVxDT x) s = .next (s.retire { state := s.writeV x s.DT }) := rfl

theorem exec_ldDT (x : Reg) (s : State) :
    exec (.ldDT x) s = .next (s.retire { state := { s with DT := s.readV x } }) := rfl

theorem exec_ldST (x : Reg) (s : State) :
    exec (.ldST x) s = .next (s.retire { state := { s with ST := s.readV x } }) := rfl

theorem exec_addI (x : Reg) (s : State) :
    exec (.addI x) s = .next (s.retire { state := { s with I := addToIndex s.I (s.readV x) } }) := rfl

theorem exec_ldF (x : Reg) (s : State) :
    exec (.ldF x) s = .next (s.retire { state := { s with I := glyphAddress (s.readV x) } }) := rfl

theorem exec_ldVxK_held (x : Reg) {s : State} {k : Fin 16} (h : firstKey s.input.keys = some k) :
    exec (.ldVxK x) s = .next (s.retire { state := s.writeV x (BitVec.ofNat 8 k.val) }) := by
  simp only [exec, execLdVxK, h]; rfl

theorem exec_ldVxK_wait (x : Reg) {s : State} (h : firstKey s.input.keys = none) :
    exec (.ldVxK x) s = .next (s.retire { state := s, ctl := .noAdvance }) := by
  simp only [exec, execLdVxK, h]; rfl

theorem skipIf_true {c : Bool} (h : c = true) (s : State) : skipIf c s = { state := s, ctl := .advance4 } := by
  simp [skipIf, h]

theorem skipIf_false {c : Bool} (h : c = false) (s : State) : skipIf c s = { state := s, ctl := .advance2 } := by
  simp [skipIf, h]

/-! ## Instructions whose execute step can raise a fault -/

theorem exec_ret_empty {s : State} (h : s.sp.val = 0) : exec .ret s = .next (s.takeFault .stackUnderflow) := by
  simp only [exec, execRet, State.pop_empty h]; rfl

theorem exec_ret_ok {s : State} {k : Fin 16} (h : s.sp.val = k.val + 1) :
    exec .ret s = .next (s.retire { state := { s with sp := ⟨k.val, by omega⟩ }, ctl := .jump (s.stack[k]).toNat }) := by
  simp only [exec, execRet, State.pop_ok h]; rfl

theorem exec_call_full (nnn : Word) {s : State} (h : s.sp.val = 16) :
    exec (.call nnn) s = .next (s.takeFault .stackOverflow) := by
  simp only [exec, execCall, State.push_full h]; rfl

theorem exec_call_ok (nnn : Word) {s : State} (h : s.sp.val < 16) :
    exec (.call nnn) s = .next (s.retire
      { state := { s with stack := s.stack.set s.sp.val (s.pc + 2), sp := ⟨s.sp.val + 1, by omega⟩ }
        ctl := .jump nnn.toNat }) := by
  simp only [exec, execCall, State.push_ok h]; rfl

theorem exec_ldB_ok (x : Reg) {s : State} (h : s.I.toNat + 2 ≤ 0xFFF) :
    exec (.ldB x) s = .next (s.retire
      { state := { s with mem := s.mem.writeSpan s.I.toNat (decimalDigits (s.readV x)) } }) := by
  have : spanInMemory s.I.toNat (decimalDigits (s.readV x)).length = true :=
    spanInMemory_iff.mpr (.inr (by simp only [decimalDigits, List.length_cons, List.length_nil]; omega))
  simp only [exec, execLdB, storeAtIndex, State.dataBase, memWriteBytes_eq, this]; rfl

theorem exec_ldB_outside (x : Reg) {s : State} (h : s.I.toNat + 2 > 0xFFF) :
    exec (.ldB x) s = .next (s.takeFault .addressing) := by
  have : spanInMemory s.I.toNat (decimalDigits (s.readV x)).length = false := by
    rw [Bool.eq_false_iff]; intro h'
    have := spanInMemory_iff.mp h'
    simp only [decimalDigits, List.length_cons, List.length_nil] at this; omega
  simp only [exec, execLdB, storeAtIndex, State.dataBase, memWriteBytes_eq, this]; rfl

theorem exec_ldMemVx_ok (x : Reg) {s : State} (h : s.I.toNat + x.val ≤ 0xFFF) :
    exec (.ldMemVx x) s = .next (s.retire
      { state := { s with mem := s.mem.writeSpan s.I.toNat (s.firstRegs x) } }) := by
  have : spanInMemory s.I.toNat (s.firstRegs x).length = true :=
    spanInMemory_iff.mpr (.inr (by rw [State.firstRegs_length]; omega))
  simp only [exec, execLdMemVx, storeAtIndex, State.dataBase, memWriteBytes_eq, this]; rfl

theorem exec_ldMemVx_outside (x : Reg) {s : State} (h : s.I.toNat + x.val > 0xFFF) :
    exec (.ldMemVx x) s = .next (s.takeFault .addressing) := by
  have : spanInMemory s.I.toNat (s.firstRegs x).length = false := by
    rw [Bool.eq_false_iff]; intro h'
    have := spanInMemory_iff.mp h'
    rw [State.firstRegs_length] at this; omega
  simp only [exec, execLdMemVx, storeAtIndex, State.dataBase, memWriteBytes_eq, this]; rfl

theorem exec_ldVxMem_ok (x : Reg) {s : State} (h : s.I.toNat + x.val ≤ 0xFFF) :
    exec (.ldVxMem x) s = .next (s.retire { state := s.loadRegs x s.I.toNat }) := by
  have : spanInMemory s.I.toNat (x.val + 1) = true := spanInMemory_iff.mpr (.inr (by omega))
  simp only [exec, execLdVxMem, State.dataBase, this]; rfl

theorem exec_ldVxMem_outside (x : Reg) {s : State} (h : s.I.toNat + x.val > 0xFFF) :
    exec (.ldVxMem x) s = .next (s.takeFault .addressing) := by
  have : spanInMemory s.I.toNat (x.val + 1) = false := by
    rw [Bool.eq_false_iff]; intro h'
    have := spanInMemory_iff.mp h'; omega
  simp only [exec, execLdVxMem, State.dataBase, this]; rfl

theorem exec_drw_ok (x y : Reg) {n : Nat} {s : State} (h : n = 0 ∨ s.I.toNat + n - 1 ≤ 0xFFF) :
    exec (.drw x y n) s = .next (s.retire
      { state := s.drawn x y (s.mem.readSpan s.I.toNat n), redraw := true }) := by
  have : spanInMemory s.I.toNat n = true := spanInMemory_iff.mpr h
  simp only [exec, execDrw, State.dataBase, memReadBytes_eq, this]; rfl

theorem exec_drw_outside (x y : Reg) {n : Nat} {s : State} (h : ¬ (n = 0 ∨ s.I.toNat + n - 1 ≤ 0xFFF)) :
    exec (.drw x y n) s = .next (s.takeFault .addressing) := by
  have : spanInMemory s.I.toNat n = false := by
    rw [Bool.eq_false_iff]; intro h'; exact h (spanInMemory_iff.mp h')
  simp only [exec, execDrw, State.dataBase, memReadBytes_eq, this]; rfl

/-! ## What every instruction has in common -/

/-- An execute step leaves alone what belongs to the cycle around it. -/
structure KeepsCycle (s : State) (e : Effect) : Prop where
  fault : e.state.fault = s.fault
  pc : e.state.pc = s.pc
  requests : e.state.requests = s.requests
  cycles : e.state.cycles = s.cycles

/-- Every instruction is the end of a cycle over some execute step. -/
theorem exec_ends_cycle (i : Instr) (s : State) :
    ∃ r, exec i s = .next (s.endCycle r) ∧ ∀ e, r = .ok e → KeepsCycle s e := by
  have simple : ∀ e : Effect, KeepsCycle s e → exec i s = .next (s.retire e) →
      ∃ r, exec i s = .next (s.endCycle r) ∧ ∀ e, r = .ok e → KeepsCycle s e :=
    fun e he h => ⟨.ok e, h, fun e' h' => by cases h'; exact he⟩
  have faulted : ∀ k : Fault, exec i s = .next (s.takeFault k) →
      ∃ r, exec i s = .next (s.endCycle r) ∧ ∀ e, r = .ok e → KeepsCycle s e :=
    fun k h => ⟨.error k, h, fun e' h' => by cases h'⟩
  cases i with
  | ret =>
    by_cases h : s.sp.val = 0
    · exact faulted _ (exec_ret_empty h)
    · exact simple _ ⟨rfl, rfl, rfl, rfl⟩ (exec_ret_ok (k := ⟨s.sp.val - 1, by omega⟩) (by simp only; omega))
  | call nnn =>
    by_cases h : s.sp.val < 16
    · exact simple _ ⟨rfl, rfl, rfl, rfl⟩ (exec_call_ok nnn h)
    · exact faulted _ (exec_call_full nnn (by omega))
  | ldB x =>
    by_cases h : s.I.toNat + 2 ≤ 0xFFF
    · exact simple _ ⟨rfl, rfl, rfl, rfl⟩ (exec_ldB_ok x h)
    · exact faulted _ (exec_ldB_outside x (by omega))
  | ldMemVx x =>
    by_cases h : s.I.toNat + x.val ≤ 0xFFF
    · exact simple _ ⟨rfl, rfl, rfl, rfl⟩ (exec_ldMemVx_ok x h)
    · exact faulted _ (exec_ldMemVx_outside x (by omega))
  | ldVxMem x =>
    by_cases h : s.I.toNat + x.val ≤ 0xFFF
    · exact simple _ ⟨rfl, rfl, rfl, rfl⟩ (exec_ldVxMem_ok x h)
    · exact faulted _ (exec_ldVxMem_outside x (by omega))
  | drw x y n =>
    by_cases h : n = 0 ∨ s.I.toNat + n - 1 ≤ 0xFFF
    · exact simple _ ⟨rfl, rfl, rfl, rfl⟩ (exec_drw_ok x y h)
    · exact faulted _ (exec_drw_outside x y h)
  | ldVxK x =>
    cases h : firstKey s.input.keys with
    | some k => exact simple _ ⟨rfl, rfl, rfl, rfl⟩ (exec_ldVxK_held x h)
    | none => exact simple _ ⟨rfl, rfl, rfl, rfl⟩ (exec_ldVxK_wait x h)
  | cls => exact simple _ ⟨rfl, rfl, rfl, rfl⟩ (exec_cls s)
  | jp nnn => exact simple _ ⟨rfl, rfl, rfl, rfl⟩ (exec_jp nnn s)
  | seByte x kk => exact simple _ ⟨rfl, rfl, rfl, rfl⟩ (exec_seByte x kk s)
  | sneByte x kk => exact simple _ ⟨rfl, rfl, rfl, rfl⟩ (exec_sneByte x kk s)
  | seReg x y => exact simple _ ⟨rfl, rfl, rfl, rfl⟩ (exec_seReg x y s)
  | sneReg x y => exact simple _ ⟨rfl, rfl, rfl, rfl⟩ (exec_sneReg x y s)
  | ldByte x kk => exact simple _ ⟨rfl, rfl, rfl, rfl⟩ (exec_ldByte x kk s)
  | addByte x kk => exact simple _ ⟨rfl, rfl, rfl, rfl⟩ (exec_addByte x kk s)
  | ldReg x y => exact simple _ ⟨rfl, rfl, rfl, rfl⟩ (exec_ldReg x y s)
  | orReg x y => exact simple _ ⟨rfl, rfl, rfl, rfl⟩ (exec_orReg x y s)
  | andReg x y => exact simple _ ⟨rfl, rfl, rfl, rfl⟩ (exec_andReg x y s)
  | xorReg x y => exact simple _ ⟨rfl, rfl, rfl, rfl⟩ (exec_xorReg x y s)
  | addReg x y => exact simple _ ⟨rfl, rfl, rfl, rfl⟩ (exec_addReg x y s)
  | subReg x y => exact simple _ ⟨rfl, rfl, rfl, rfl⟩ (exec_subReg x y s)
  | shr x y => exact simple _ ⟨rfl, rfl, rfl, rfl⟩ (exec_shr x y s)
  | subnReg x y => exact simple _ ⟨rfl, rfl, rfl, rfl⟩ (exec_subnReg x y s)
  | shl x y => exact simple _ ⟨rfl, rfl, rfl, rfl⟩ (exec_shl x y s)
  | skp x => exact simple _ ⟨rfl, rfl, rfl, rfl⟩ (exec_skp x s)
  | sknp x => exact simple _ ⟨rfl, rfl, rfl, rfl⟩ (exec_sknp x s)
  | ldI nnn => exact simple _ ⟨rfl, rfl, rfl, rfl⟩ (exec_ldI nnn s)
  | jpV0 nnn => exact simple _ ⟨rfl, rfl, rfl, rfl⟩ (exec_jpV0 nnn s)
  | rnd x kk => exact simple _ ⟨rfl, rfl, rfl, rfl⟩ (exec_rnd x kk s)
  | ldVxDT x => exact simple _ ⟨rfl, rfl, rfl, rfl⟩ (exec_ldVxDT x s)
  | ldDT x => exact simple _ ⟨rfl, rfl, rfl, rfl⟩ (exec_ldDT x s)
  | ldST x => exact simple _ ⟨rfl, rfl, rfl, rfl⟩ (exec_ldST x s)
  | addI x => exact simple _ ⟨rfl, rfl, rfl, rfl⟩ (exec_addI x s)
  | ldF x => exact simple _ ⟨rfl, rfl, rfl, rfl⟩ (exec_ldF x s)

/-- Everything an instruction's cycle can do: retire an effect, or take a fault. -/
theorem exec_cases {i : Instr} {s t : State} (h : exec i s = .next t) :
    (∃ e, KeepsCycle s e ∧ pcLegal (e.ctl.target s.pc) = true ∧ t = s.retired e) ∨ (∃ k, t = s.takeFault k) := by
  obtain ⟨r, hr, hk⟩ := exec_ends_cycle i s
  rw [hr] at h
  cases h
  rcases s.endCycle_cases r with ⟨e, he, hl, heq⟩ | ⟨e, _, _, heq⟩ | ⟨k, _, heq⟩
  · exact .inl ⟨e, hk e he, hl, heq⟩
  · exact .inr ⟨.addressing, heq⟩
  · exact .inr ⟨k, heq⟩

end Sys2Proof.Machine
end

