-- ==== Sys2Proof/Laws/PerInstr.lean ====
section
/-! SUPPORT. Statements for all instructions, one lemma for each constructor of Instr. -/

namespace Sys2Proof.Laws.EncodedWordSelectsRow

/-- The word the encoder makes selects the instruction's own row of the opcode map (R84), operands of any value. -/
def Statement (i : Instr) : Prop := i.row.selects (encode i) = true

theorem cls : Statement (.cls) := by unfold Statement; decide

theorem ret : Statement (.ret) := by unfold Statement; decide

theorem jp (nnn : Word) : Statement (.jp nnn) := by
  simp only [Statement, OpRow.selects, Instr.row, encode, beq_iff_eq]
  exact (wordNNN_and_F000 ..).trans (by decide)

theorem call (nnn : Word) : Statement (.call nnn) := by
  simp only [Statement, OpRow.selects, Instr.row, encode, beq_iff_eq]
  exact (wordNNN_and_F000 ..).trans (by decide)

theorem seByte (x : Reg) (kk : Byte) : Statement (.seByte x kk) := by
  simp only [Statement, OpRow.selects, Instr.row, encode, beq_iff_eq]
  exact (wordXKK_and_F000 ..).trans (by decide)

theorem sneByte (x : Reg) (kk : Byte) : Statement (.sneByte x kk) := by
  simp only [Statement, OpRow.selects, Instr.row, encode, beq_iff_eq]
  exact (wordXKK_and_F000 ..).trans (by decide)

theorem seReg (x y : Reg) : Statement (.seReg x y) := by
  simp only [Statement, OpRow.selects, Instr.row, encode, beq_iff_eq]
  exact (wordXYN_and_F00F ..).trans (by decide)

theorem sneReg (x y : Reg) : Statement (.sneReg x y) := by
  simp only [Statement, OpRow.selects, Instr.row, encode, beq_iff_eq]
  exact (wordXYN_and_F00F ..).trans (by decide)

theorem ldByte (x : Reg) (kk : Byte) : Statement (.ldByte x kk) := by
  simp only [Statement, OpRow.selects, Instr.row, encode, beq_iff_eq]
  exact (wordXKK_and_F000 ..).trans (by decide)

theorem addByte (x : Reg) (kk : Byte) : Statement (.addByte x kk) := by
  simp only [Statement, OpRow.selects, Instr.row, encode, beq_iff_eq]
  exact (wordXKK_and_F000 ..).trans (by decide)

theorem ldReg (x y : Reg) : Statement (.ldReg x y) := by
  simp only [Statement, OpRow.selects, Instr.row, encode, beq_iff_eq]
  exact (wordXYN_and_F00F ..).trans (by decide)

theorem orReg (x y : Reg) : Statement (.orReg x y) := by
  simp only [Statement, OpRow.selects, Instr.row, encode, beq_iff_eq]
  exact (wordXYN_and_F00F ..).trans (by decide)

theorem andReg (x y : Reg) : Statement (.andReg x y) := by
  simp only [Statement, OpRow.selects, Instr.row, encode, beq_iff_eq]
  exact (wordXYN_and_F00F ..).trans (by decide)

theorem xorReg (x y : Reg) : Statement (.xorReg x y) := by
  simp only [Statement, OpRow.selects, Instr.row, encode, beq_iff_eq]
  exact (wordXYN_and_F00F ..).trans (by decide)

theorem addReg (x y : Reg) : Statement (.addReg x y) := by
  simp only [Statement, OpRow.selects, Instr.row, encode, beq_iff_eq]
  exact (wordXYN_and_F00F ..).trans (by decide)

theorem subReg (x y : Reg) : Statement (.subReg x y) := by
  simp only [Statement, OpRow.selects, Instr.row, encode, beq_iff_eq]
  exact (wordXYN_and_F00F ..).trans (by decide)

theorem shr (x y : Reg) : Statement (.shr x y) := by
  simp only [Statement, OpRow.selects, Instr.row, encode, beq_iff_eq]
  exact (wordXYN_and_F00F ..).trans (by decide)

theorem subnReg (x y : Reg) : Statement (.subnReg x y) := by
  simp only [Statement, OpRow.selects, Instr.row, encode, beq_iff_eq]
  exact (wordXYN_and_F00F ..).trans (by decide)

theorem shl (x y : Reg) : Statement (.shl x y) := by
  simp only [Statement, OpRow.selects, Instr.row, encode, beq_iff_eq]
  exact (wordXYN_and_F00F ..).trans (by decide)

theorem skp (x : Reg) : Statement (.skp x) := by
  simp only [Statement, OpRow.selects, Instr.row, encode, beq_iff_eq]
  exact (wordXKK_and_F0FF ..).trans (by decide)

theorem sknp (x : Reg) : Statement (.sknp x) := by
  simp only [Statement, OpRow.selects, Instr.row, encode, beq_iff_eq]
  exact (wordXKK_and_F0FF ..).trans (by decide)

theorem ldI (nnn : Word) : Statement (.ldI nnn) := by
  simp only [Statement, OpRow.selects, Instr.row, encode, beq_iff_eq]
  exact (wordNNN_and_F000 ..).trans (by decide)

theorem jpV0 (nnn : Word) : Statement (.jpV0 nnn) := by
  simp only [Statement, OpRow.selects, Instr.row, encode, beq_iff_eq]
  exact (wordNNN_and_F000 ..).trans (by decide)

theorem rnd (x : Reg) (kk : Byte) : Statement (.rnd x kk) := by
  simp only [Statement, OpRow.selects, Instr.row, encode, beq_iff_eq]
  exact (wordXKK_and_F000 ..).trans (by decide)

theorem drw (x y : Reg) (n : Nat) : Statement (.drw x y n) := by
  simp only [Statement, OpRow.selects, Instr.row, encode, beq_iff_eq]
  exact (wordXYN_and_F000 ..).trans (by decide)

theorem ldVxDT (x : Reg) : Statement (.ldVxDT x) := by
  simp only [Statement, OpRow.selects, Instr.row, encode, beq_iff_eq]
  exact (wordXKK_and_F0FF ..).trans (by decide)

theorem ldVxK (x : Reg) : Statement (.ldVxK x) := by
  simp only [Statement, OpRow.selects, Instr.row, encode, beq_iff_eq]
  exact (wordXKK_and_F0FF ..).trans (by decide)

theorem ldDT (x : Reg) : Statement (.ldDT x) := by
  simp only [Statement, OpRow.selects, Instr.row, encode, beq_iff_eq]
  exact (wordXKK_and_F0FF ..).trans (by decide)

theorem ldST (x : Reg) : Statement (.ldST x) := by
  simp only [Statement, OpRow.selects, Instr.row, encode, beq_iff_eq]
  exact (wordXKK_and_F0FF ..).trans (by decide)

theorem addI (x : Reg) : Statement (.addI x) := by
  simp only [Statement, OpRow.selects, Instr.row, encode, beq_iff_eq]
  exact (wordXKK_and_F0FF ..).trans (by decide)

theorem ldF (x : Reg) : Statement (.ldF x) := by
  simp only [Statement, OpRow.selects, Instr.row, encode, beq_iff_eq]
  exact (wordXKK_and_F0FF ..).trans (by decide)

theorem ldB (x : Reg) : Statement (.ldB x) := by
  simp only [Statement, OpRow.selects, Instr.row, encode, beq_iff_eq]
  exact (wordXKK_and_F0FF ..).trans (by decide)

theorem ldMemVx (x : Reg) : Statement (.ldMemVx x) := by
  simp only [Statement, OpRow.selects, Instr.row, encode, beq_iff_eq]
  exact (wordXKK_and_F0FF ..).trans (by decide)

theorem ldVxMem (x : Reg) : Statement (.ldVxMem x) := by
  simp only [Statement, OpRow.selects, Instr.row, encode, beq_iff_eq]
  exact (wordXKK_and_F0FF ..).trans (by decide)

end Sys2Proof.Laws.EncodedWordSelectsRow
end

