-- ==== Sys2Proof/Laws/Step.lean ====
section
/-! SUPPORT. Everything a step can do, said once. -/

namespace Sys2Proof.Machine

theorem step_of_cycleNext {s : State} (h : s.CycleNext) : step s = s.runCycle := by
  rcases h with h | ⟨p, rest, h⟩ <;> simp [step, h]

theorem step_of_reset {s : State} {rest : List HostRequest} (h : s.requests = .reset :: rest) :
    step s = .next s.hostReset := by
  simp [step, h]

theorem step_of_load {s : State} {bytes : List Byte} {rest : List HostRequest} (h : s.requests = .load bytes :: rest) :
    step s = .next (s.hostLoad bytes) := by
  simp [step, h]

/-- The three kinds of request that can be served next. -/
theorem requests_cases (s : State) :
    s.CycleNext ∨ (∃ rest, s.requests = .reset :: rest) ∨ (∃ bytes rest, s.requests = .load bytes :: rest) := by
  cases h : s.requests with
  | nil => exact .inl (.inl h)
  | cons r rest =>
    cases r with
    | cycle p => exact .inl (.inr ⟨p, rest, h⟩)
    | reset => exact .inr (.inl ⟨rest, rfl⟩)
    | load bytes => exact .inr (.inr ⟨bytes, rest, rfl⟩)

theorem runCycle_halted {s : State} {k : Fault} (h : s.fault = some k) : s.runCycle = .fault k := by
  simp [State.runCycle, h]

theorem runCycle_fetchFault {s : State} {k : Fault} (hf : s.fault = none) (h : s.fetch = .error k) :
    s.runCycle = .next (s.takeFault k) := by
  simp [State.runCycle, hf, h]

theorem runCycle_exec {s : State} {op : Word} {i : Instr} (hf : s.fault = none) (h : s.fetch = .ok op)
    (hd : decode op = .ok i) : s.runCycle = exec i s := by
  simp [State.runCycle, hf, h, hd]

theorem runCycle_unrecognized {s : State} {op : Word} {e : Reject} (hf : s.fault = none) (h : s.fetch = .ok op)
    (hd : decode op = .error e) : s.runCycle = .next (s.retire { state := s }) := by
  simp only [State.runCycle, hf, h, hd]; rfl

/-- A fetch raises no fault but AddressingFault. -/
theorem fetch_error {s : State} {k : Fault} (h : s.fetch = .error k) : k = .addressing ∧ 0xFFF ≤ s.pc.toNat := by
  by_cases hp : s.pc.toNat < 0xFFF
  · rw [State.fetch_ok hp] at h; cases h
  · rw [State.fetch_top hp] at h; cases h; exact ⟨rfl, by omega⟩

/-- Everything a step that answers a next state can have done. -/
theorem step_cases {s t : State} (h : step s = .next t) :
    (∃ rest, s.requests = .reset :: rest ∧ t = s.hostReset) ∨
    (∃ bytes rest, s.requests = .load bytes :: rest ∧ t = s.hostLoad bytes) ∨
    (s.CycleNext ∧ s.fault = none ∧ s.fetch = .error .addressing ∧ t = s.takeFault .addressing) ∨
    (∃ i, s.Runs i ∧ exec i s = .next t) ∨
    (∃ op e, s.CycleNext ∧ s.fault = none ∧ s.fetch = .ok op ∧ decode op = .error e ∧
      t = s.retire { state := s }) := by
  rcases requests_cases s with hc | ⟨rest, hr⟩ | ⟨bytes, rest, hr⟩
  · rw [step_of_cycleNext hc] at h
    cases hf : s.fault with
    | some k => rw [runCycle_halted hf] at h; cases h
    | none =>
      cases hw : s.fetch with
      | error k =>
        rw [runCycle_fetchFault hf hw] at h
        cases h
        rw [(fetch_error hw).1]
        exact .inr (.inr (.inl ⟨hc, rfl, rfl, rfl⟩))
      | ok op =>
        cases hd : decode op with
        | ok i =>
          rw [runCycle_exec hf hw hd] at h
          exact .inr (.inr (.inr (.inl ⟨i, ⟨hf, hc, op, hw, hd⟩, h⟩)))
        | error e =>
          rw [runCycle_unrecognized hf hw hd] at h
          cases h
          exact .inr (.inr (.inr (.inr ⟨op, e, hc, rfl, rfl, hd, rfl⟩)))
  · rw [step_of_reset hr] at h; cases h; exact .inl ⟨rest, hr, rfl⟩
  · rw [step_of_load hr] at h; cases h; exact .inr (.inl ⟨bytes, rest, hr, rfl⟩)

/-- What a step that runs instruction `i` is. -/
theorem step_of_runs {s : State} {i : Instr} (h : s.Runs i) : step s = exec i s := by
  obtain ⟨hf, hc, op, hw, hd⟩ := h
  rw [step_of_cycleNext hc, runCycle_exec hf hw hd]

/-- At most one instruction is run next. -/
theorem runs_unique {s : State} {i j : Instr} (hi : s.Runs i) (hj : s.Runs j) : i = j := by
  obtain ⟨_, _, op, hw, hd⟩ := hi
  obtain ⟨_, _, op', hw', hd'⟩ := hj
  rw [hw] at hw'; cases hw'
  rw [hd] at hd'; cases hd'
  rfl

end Sys2Proof.Machine
end

