-- ==== Sys2Proof/Tests/Slice0.lean ====
section
/-! SUPPORT. The model's own tests: ill-formed terms refused, words decoded, one step per vector of 95_test_vectors.md, and for
each statement with hypotheses a state that meets them. Expected values come from spec/, named in the docstrings. -/

namespace Sys2Proof.Tests

open Sys2Proof Sys2Proof.Machine Sys2Proof.Spec

/-! ## Well-formedness -/

theorem test_wf_jp_address_too_wide : (Instr.jp 0x1000).wf = false := by decide
theorem test_wf_call_address_too_wide : (Instr.call 0x1000).wf = false := by decide
theorem test_wf_ldI_address_too_wide : (Instr.ldI 0xFFFF).wf = false := by decide
theorem test_wf_jpV0_address_too_wide : (Instr.jpV0 0x8000).wf = false := by decide
theorem test_wf_drw_too_many_rows : (Instr.drw 0 1 16).wf = false := by decide
theorem test_wf_at_the_limits : (Instr.jp 0xFFF).wf = true ∧ (Instr.drw 15 15 15).wf = true := by decide

/-! ## Decoding: each constructor's word, written out from 30_encoding.md R84's bit patterns -/

theorem test_decode_family_0 : decode 0b0000000011100000 = .ok .cls ∧ decode 0b0000000011101110 = .ok .ret := by decide
theorem test_decode_jumps : decode 0b0001101010111100 = .ok (.jp 0xABC) ∧ decode 0b0010111111111111 = .ok (.call 0xFFF) ∧
    decode 0b1011000100100011 = .ok (.jpV0 0x123) := by decide
theorem test_decode_skips : decode 0b0011101001111111 = .ok (.seByte 10 0x7F) ∧
    decode 0b0100001100000101 = .ok (.sneByte 3 0x05) ∧ decode 0b0101101010110000 = .ok (.seReg 10 11) ∧
    decode 0b1001101010110000 = .ok (.sneReg 10 11) := by decide
theorem test_decode_constants : decode 0b0110101000000101 = .ok (.ldByte 10 0x05) ∧
    decode 0b0111000011111111 = .ok (.addByte 0 0xFF) := by decide
theorem test_decode_alu_plain : decode 0b1000000100100000 = .ok (.ldReg 1 2) ∧
    decode 0b1000000100100001 = .ok (.orReg 1 2) ∧ decode 0b1000000100100010 = .ok (.andReg 1 2) ∧
    decode 0b1000000100100011 = .ok (.xorReg 1 2) := by decide
theorem test_decode_alu_flag : decode 0b1000000100100100 = .ok (.addReg 1 2) ∧
    decode 0b1000000100100101 = .ok (.subReg 1 2) ∧ decode 0b1000000100100110 = .ok (.shr 1 2) ∧
    decode 0b1000101010110111 = .ok (.subnReg 10 11) ∧ decode 0b1000101010111110 = .ok (.shl 10 11) := by decide
theorem test_decode_index : decode 0b1010001011110000 = .ok (.ldI 0x2F0) ∧ decode 0b1111000100011110 = .ok (.addI 1) ∧
    decode 0b1111001000101001 = .ok (.ldF 2) := by decide
theorem test_decode_memory : decode 0b1111000000110011 = .ok (.ldB 0) ∧ decode 0b1111001001010101 = .ok (.ldMemVx 2) ∧
    decode 0b1111010001100101 = .ok (.ldVxMem 4) := by decide
theorem test_decode_display : decode 0b1101000100101111 = .ok (.drw 1 2 15) ∧
    decode 0b1101000100100000 = .ok (.drw 1 2 0) := by decide
theorem test_decode_timers : decode 0b1111001100000111 = .ok (.ldVxDT 3) ∧ decode 0b1111000000010101 = .ok (.ldDT 0) ∧
    decode 0b1111000000011000 = .ok (.ldST 0) := by decide
theorem test_decode_keys_random : decode 0b1110000110011110 = .ok (.skp 1) ∧
    decode 0b1110000110100001 = .ok (.sknp 1) ∧ decode 0b1111000100001010 = .ok (.ldVxK 1) ∧
    decode 0b1100001110100101 = .ok (.rnd 3 0xA5) := by decide

/-- The unrecognized words of 95_test_vectors.md B1. -/
theorem test_decode_unrecognized_0 : decode 0x0000 = .error .unrecognized0 ∧ decode 0x00E1 = .error .unrecognized0 ∧
    decode 0x00FE = .error .unrecognized0 ∧ decode 0x01E0 = .error .unrecognized0 := by decide
theorem test_decode_unrecognized_rest : decode 0x5AB1 = .error .unrecognized5 ∧
    decode 0x8AB8 = .error .unrecognized8 ∧ decode 0x8ABF = .error .unrecognized8 ∧
    decode 0x9ABF = .error .unrecognized9 ∧ decode 0xE19F = .error .unrecognizedE ∧
    decode 0xF175 = .error .unrecognizedF ∧ decode 0xFFFF = .error .unrecognizedF := by decide
theorem test_decode_too_few_bytes : decodeBytes [] = .error .tooFewBytes ∧
    decodeBytes [0x12] = .error .tooFewBytes := by decide
/-- R80: the byte at the lower address is the high byte of the word. -/
theorem test_decode_bytes_big_endian : decodeBytes [0x12, 0x0C, 0x99] = .ok (.jp 0x20C, [0x99]) := by decide
theorem test_encode : encode (.jp 0xABC) = 0x1ABC ∧ encode (.rnd 3 0xA5) = 0xC3A5 ∧ encode (.shl 10 11) = 0x8ABE ∧
    encode (.drw 1 2 15) = 0xD12F ∧ encode (.ldVxMem 1) = 0xF165 := by decide
theorem test_decodeTableWord : decodeTableWord 16 0x00E0 = some .cls ∧ decodeTableWord 16 0xF00A = some (.ldVxK 0) ∧
    decodeTableWord 16 0x0000 = none := by decide

/-! ## Small states -/

def quiet : CycleInput := ⟨Vector.replicate 16 false, 0x00⟩
def pressing (ks : List (Fin 16)) (rand : Byte) : CycleInput := ⟨Vector.ofFn fun k => ks.contains k, rand⟩

/-- After reset, with one word at `pc`, some registers set, and one cycle pending. -/
def cpu (pc op : Word) (rs : List (Reg × Byte)) (inputs : CycleInput := quiet) : State :=
  (rs.foldl (fun (s : State) p => s.writeV p.1 p.2) { State.reset with pc := pc, requests := [.cycle inputs] }).placeWord op

def withI (s : State) (i : Word) : State := { s with I := i }
def withMem (s : State) (base : Nat) (bytes : List Byte) : State := { s with mem := s.mem.writeSpan base bytes }
def withTimers (s : State) (dt st : Byte) : State := { s with DT := dt, ST := st }
def withStack (s : State) (sp : Fin 17) (ret : Word) : State := { s with sp := sp, stack := Vector.replicate 16 ret }

/-- The next step answers a next state with this property. -/
def steps (s : State) (p : State → Bool) : Bool :=
  match step s with
  | .next t => p t
  | .fault _ => false
  | .refused _ => false

/-- The state an instruction leaves. -/
def after (i : Instr) (s : State) : State :=
  match exec i s with
  | .next t => t
  | .fault _ => s
  | .refused _ => s

/-- The state the next step leaves. -/
def stepped (s : State) : State :=
  match step s with
  | .next t => t
  | .fault _ => s
  | .refused _ => s

/-! ## One step: 95_test_vectors.md, Parts A and B -/

theorem test_jp_B2_1 : steps (cpu 0x20A 0x1204 []) (fun t => t.pc == 0x204) = true := by decide
theorem test_jp_below_program_B2_4 :
    steps (cpu 0x200 0x11FF []) (fun t => t.pc == 0x200 && t.fault == some .addressing) = true := by decide
theorem test_call_B2_6 :
    steps (cpu 0x204 0x220A []) (fun t => t.pc == 0x20A && t.sp == 1 && t.stack[0] == 0x206) = true := by decide
theorem test_call_full_stack_first_B2_9 :
    steps (withStack (cpu 0x300 0x2100 []) 16 0x202) (fun t => t.fault == some .stackOverflow && t.sp == 16) = true := by
  decide
theorem test_ret_B2_12 :
    steps (withStack (cpu 0x20C 0x00EE []) 1 0x206) (fun t => t.pc == 0x206 && t.sp == 0) = true := by decide
theorem test_ret_top_address_B2_11 :
    steps (withStack (cpu 0x200 0x00EE []) 1 0x1000) (fun t => t.fault == some .addressing && t.sp == 1) = true := by
  decide
theorem test_seByte_A9 : steps (cpu 0x200 0x3305 [(3, 5)]) (fun t => t.pc == 0x204) = true ∧
    steps (cpu 0x200 0x3306 [(3, 5)]) (fun t => t.pc == 0x202) = true := by decide
theorem test_sneByte_B2_17 : steps (cpu 0x200 0x4305 [(3, 5)]) (fun t => t.pc == 0x202) = true ∧
    steps (cpu 0x200 0x4306 [(3, 5)]) (fun t => t.pc == 0x204) = true := by decide
theorem test_seReg_B2_19 : steps (cpu 0x300 0x5120 [(1, 0x2A), (2, 0x2A)]) (fun t => t.pc == 0x304) = true ∧
    steps (cpu 0x300 0x5120 [(1, 0x2A), (2, 0x2B)]) (fun t => t.pc == 0x302) = true := by decide
theorem test_sneReg_B2_21 : steps (cpu 0x300 0x9120 [(1, 0x2A), (2, 0x2B)]) (fun t => t.pc == 0x304) = true ∧
    steps (cpu 0x300 0x9110 [(1, 0x2A)]) (fun t => t.pc == 0x302) = true := by decide
theorem test_jpV0_B2_28 : steps (cpu 0x300 0xB101 [(0, 0xFF), (1, 0x77)]) (fun t => t.pc == 0x200) = true := by decide
theorem test_jpV0_above_memory_B2_27 :
    steps (cpu 0x200 0xBFFF [(0, 0x01)]) (fun t => t.fault == some .addressing) = true := by decide
theorem test_skip_past_memory_B2_30 :
    steps (cpu 0xFFC 0x3000 []) (fun t => t.pc == 0xFFC && t.fault == some .addressing) = true := by decide
theorem test_ldByte_at_top_B2_32 :
    steps (cpu 0xFFE 0x6012 []) (fun t => t.readV 0 == 0x00 && t.fault == some .addressing) = true := by decide
theorem test_ldByte_B3_50 : steps (cpu 0x200 0x6A05 []) (fun t => t.readV 10 == 0x05 && t.pc == 0x202) = true := by decide
theorem test_addByte_B3_52 :
    steps (cpu 0x200 0x7002 [(0, 0xFF)]) (fun t => t.readV 0 == 0x01 && t.readV VF == 0) = true := by decide
theorem test_ldReg_B3_1 : steps (cpu 0x200 0x8120 [(1, 0x11), (2, 0x7C)]) (fun t => t.readV 1 == 0x7C) = true := by decide
theorem test_orReg_B3_45 : steps (cpu 0x200 0x8F21 [(VF, 0x10), (2, 0x0F)]) (fun t => t.readV VF == 0x1F) = true := by decide
theorem test_andReg_B3_3 : steps (cpu 0x200 0x8122 [(1, 0xCC), (2, 0xAA)]) (fun t => t.readV 1 == 0x88) = true := by decide
theorem test_xorReg_B3_4 : steps (cpu 0x200 0x8123 [(1, 0xCC), (2, 0xAA)]) (fun t => t.readV 1 == 0x66) = true := by decide
theorem test_addReg_A3 :
    steps (cpu 0x200 0x8124 [(1, 0xFF), (2, 0x01)]) (fun t => t.readV 1 == 0x00 && t.readV VF == 1) = true := by decide
theorem test_addReg_flag_wins_B3_41 : steps (cpu 0x200 0x8FF4 [(VF, 0x80)]) (fun t => t.readV VF == 0x01) = true := by decide
theorem test_subReg_A4 :
    steps (cpu 0x200 0x8125 [(1, 0x03), (2, 0x05)]) (fun t => t.readV 1 == 0xFE && t.readV VF == 0) = true := by decide
theorem test_subReg_equal_B3_13 :
    steps (cpu 0x200 0x8125 [(1, 0x07), (2, 0x07)]) (fun t => t.readV 1 == 0x00 && t.readV VF == 1) = true := by decide
theorem test_shr_A5 :
    steps (cpu 0x200 0x8126 [(1, 0x03), (2, 0xFF)]) (fun t => t.readV 1 == 0x01 && t.readV VF == 1) = true := by decide
theorem test_subnReg_B3_22 :
    steps (cpu 0x200 0x8127 [(1, 0x03), (2, 0x05)]) (fun t => t.readV 1 == 0x02 && t.readV VF == 1) = true := by decide
theorem test_subnReg_equal_B3_24 :
    steps (cpu 0x200 0x8127 [(1, 0x07), (2, 0x07)]) (fun t => t.readV 1 == 0x00 && t.readV VF == 1) = true := by decide
theorem test_shl_A5 :
    steps (cpu 0x200 0x812E [(1, 0x81), (2, 0x00)]) (fun t => t.readV 1 == 0x02 && t.readV VF == 1) = true := by decide
theorem test_ldI_B4_1 : steps (cpu 0x200 0xA2F0 []) (fun t => t.I == 0x02F0) = true := by decide
theorem test_addI_wraps_B4_4 : steps (withI (cpu 0x200 0xF11E [(1, 0x02)]) 0xFFFF) (fun t => t.I == 0x0001) = true := by decide
theorem test_addI_past_memory_B4_3 :
    steps (withI (cpu 0x200 0xF11E [(1, 0x05)]) 0x0FFE) (fun t => t.I == 0x1003 && t.fault == none) = true := by decide
theorem test_ldF_B4_10 : steps (cpu 0x200 0xF229 [(2, 0xFF)]) (fun t => t.I == 0x04FB) = true := by decide
theorem test_ldB_A6 : steps (withI (cpu 0x200 0xF033 [(0, 157)]) 0x300)
    (fun t => t.mem.readSpan 0x300 3 == [1, 5, 7] && t.I == 0x300) = true := by decide
theorem test_ldB_outside_B4_21 : steps (withI (cpu 0x200 0xF033 [(0, 255)]) 0xFFE)
    (fun t => t.mem.readSpan 0xFFE 2 == [0, 0] && t.fault == some .addressing) = true := by decide
theorem test_ldMemVx_B4_22 : steps (withI (cpu 0x200 0xF255 [(0, 0x11), (1, 0x22), (2, 0x33), (3, 0x44)]) 0x300)
    (fun t => t.mem.readSpan 0x300 4 == [0x11, 0x22, 0x33, 0x00] && t.I == 0x300) = true := by decide
theorem test_ldMemVx_outside_B4_26 : steps (withI (cpu 0x200 0xF155 [(0, 0xAA), (1, 0xBB)]) 0xFFF)
    (fun t => t.mem.read 0xFFF == 0 && t.fault == some .addressing) = true := by decide
theorem test_ldVxMem_B4_29 : steps (withI (withMem (cpu 0x200 0xF265 [(3, 0x99)]) 0x300 [1, 5, 7]) 0x300)
    (fun t => t.readV 0 == 1 && t.readV 2 == 7 && t.readV 3 == 0x99 && t.I == 0x300) = true := by decide
theorem test_ldVxMem_font_B4_30 :
    steps (cpu 0x200 0xF465 []) (fun t => t.firstRegs 4 == [0xF0, 0x90, 0x90, 0x90, 0xF0]) = true := by decide
theorem test_cls_B5_11 : steps { cpu 0x200 0x00E0 [] with fb := Framebuffer.blank.setPixel 3 4 true }
    (fun t => !t.fbRead 3 4 && t.redrawPin) = true := by decide
theorem test_drw_wraps_A8 : steps (withI (withMem (cpu 0x200 0xD011 [(0, 60)]) 0x300 [0xFF]) 0x300)
    (fun t => t.fbRead 63 0 && t.fbRead 0 0 && t.fbRead 3 0 && !t.fbRead 4 0 && t.readV VF == 0 && t.redrawPin) = true := by
  decide
theorem test_drw_collides_B5_5 :
    steps { withI (withMem (cpu 0x200 0xD011 []) 0x300 [0xFF]) 0x300 with fb := Framebuffer.blank.setPixel 1 0 true }
      (fun t => !t.fbRead 1 0 && t.fbRead 0 0 && t.fbRead 7 0 && t.readV VF == 1) = true := by decide
theorem test_ldVxDT_B6_1 : steps (withTimers (cpu 0x200 0xF307 []) 0x10 0)
    (fun t => t.readV 3 == 0x10 && t.DT == 0x0F) = true := by decide
theorem test_ldDT_B6_3 : steps (cpu 0x200 0xF015 [(0, 3)]) (fun t => t.DT == 0x02) = true := by decide
theorem test_ldST_B6_7 : steps (cpu 0x200 0xF018 [(0, 5)]) (fun t => t.ST == 0x04 && t.tonePin) = true := by decide
theorem test_ldST_B6_8 : steps (cpu 0x200 0xF018 [(0, 1)]) (fun t => t.ST == 0x00 && !t.tonePin) = true := by decide
theorem test_skp_B6_15 : steps (cpu 0x200 0xE19E [(1, 0x17)] (pressing [7] 0)) (fun t => t.pc == 0x204) = true := by decide
theorem test_sknp_B6_14 : steps (cpu 0x200 0xE1A1 [(1, 7)] (pressing [7] 0)) (fun t => t.pc == 0x202) = true := by decide
theorem test_ldVxK_waits_B6_16 : steps (withTimers (cpu 0x204 0xF10A [(1, 0x55)]) 3 0)
    (fun t => t.pc == 0x204 && t.readV 1 == 0x55 && t.DT == 2) = true := by decide
theorem test_ldVxK_smallest_B6_18 : steps (cpu 0x204 0xF10A [] (pressing [3, 9] 0))
    (fun t => t.pc == 0x206 && t.readV 1 == 0x03) = true := by decide
theorem test_rnd_B6_20 : steps (cpu 0x200 0xC30F [] (pressing [] 0xB7)) (fun t => t.readV 3 == 0x07) = true := by decide
theorem test_unrecognized_B1 : steps (withTimers (cpu 0x300 0xFFFF []) 1 2)
    (fun t => t.pc == 0x302 && t.DT == 0 && t.ST == 1 && t.result == some (.ok false true)) = true := by decide
theorem test_fetch_at_top_B7_3 : steps (withTimers { State.reset with pc := 0xFFF } 9 0)
    (fun t => t.pc == 0xFFF && t.DT == 9 && t.fault == some .addressing) = true := by decide
theorem test_withFetchWord_runs : steps (State.reset.withFetchWord 16 0xA2F0) (fun t => t.I == 0x2F0) = true := by decide
theorem test_reset_memory_canonical : State.reset.mem.wf = true := by decide
theorem test_fault_codes : faultCode none = 0 ∧ faultCode (some .addressing) = 1 ∧
    faultCode (some .stackOverflow) = 2 ∧ faultCode (some .stackUnderflow) = 3 := by decide

/-! ## Witnesses: for each statement with hypotheses, a state and operands that meet them, one clause at a time -/

/-- The hypotheses of a statement about one instruction: it ends in this state, and that state has no fault. -/
def Completes (i : Instr) (s : State) : Prop := s.fault = none ∧ exec i s = .next (after i s) ∧ (after i s).fault = none

/-- A step with no fault, from a state that is not halted. -/
def StepsOk (s : State) : Prop := s.fault = none ∧ s.CycleNext ∧ step s = .next (stepped s) ∧ (stepped s).fault = none

theorem witness_DecodeOfEncodeIsIdentity : (Instr.jp 0xFFF).wf = true ∧ (Instr.drw 15 15 15).wf = true := by decide
theorem witness_EncodeOfDecodeIsIdentity : decode 0xDFFF = .ok (.drw 15 15 15) := by decide
theorem witness_DecodeFollowsOpcodeRows : decode 0x8ABE = .ok (.shl 10 11) ∧
    (⟨0xF00F, 0x800E⟩ : OpRow) ∈ opcodeRows ∧ (⟨0xF00F, 0x800E⟩ : OpRow).selects 0x8ABE = true := by decide
theorem witness_InstructionsAreTwoBytesBigEndian : ([] : List Byte).length < 2 ∧ ([0x12] : List Byte).length < 2 := by decide

theorem witness_FetchJoinsTwoBytesOrFaultsAtTheTop_joins : LegalPc (cpu 0xFFE 0x1200 []).pc.toNat ∧
    (cpu 0xFFE 0x1200 []).pc.toNat < 0xFFF := by decide
theorem witness_FetchJoinsTwoBytesOrFaultsAtTheTop_faults : LegalPc (cpu 0xFFF 0 []).pc.toNat ∧
    (cpu 0xFFF 0 []).pc.toNat = 0xFFF ∧ (cpu 0xFFF 0 []).fault = none ∧ (cpu 0xFFF 0 []).CycleNext :=
  ⟨by decide, by decide, by decide, .inr ⟨_, _, rfl⟩⟩
theorem witness_StepRunsTheDecodedInstruction : (cpu 0x200 0xA2F0 []).fault = none ∧ (cpu 0x200 0xA2F0 []).CycleNext ∧
    (cpu 0x200 0xA2F0 []).fetch = .ok 0xA2F0 ∧ decode 0xA2F0 = .ok (.ldI 0x2F0) :=
  ⟨by decide, .inr ⟨_, _, rfl⟩, by decide, by decide⟩
theorem witness_UnrecognizedWordIsANoOp_advances : (cpu 0xFFD 0xFFFF []).fault = none ∧ (cpu 0xFFD 0xFFFF []).CycleNext ∧
    (cpu 0xFFD 0xFFFF []).fetch = .ok 0xFFFF ∧ decode 0xFFFF = .error .unrecognizedF ∧
    LegalPc ((cpu 0xFFD 0xFFFF []).pc.toNat + 2) :=
  ⟨by decide, .inr ⟨_, _, rfl⟩, by decide, by decide, by decide⟩
theorem witness_UnrecognizedWordIsANoOp_faults : (cpu 0xFFE 0x0000 []).fault = none ∧ (cpu 0xFFE 0x0000 []).CycleNext ∧
    (cpu 0xFFE 0x0000 []).fetch = .ok 0x0000 ∧ decode 0x0000 = .error .unrecognized0 ∧
    ¬ LegalPc ((cpu 0xFFE 0x0000 []).pc.toNat + 2) :=
  ⟨by decide, .inr ⟨_, _, rfl⟩, by decide, by decide, by decide⟩

/-- Reset, halted by a stack overflow, with these requests pending. -/
def halted (requests : List HostRequest) : State :=
  { State.reset with fault := some .stackOverflow, requests := requests }

theorem witness_HaltedCoreOnlyLoadsOrResets_cycle : (halted []).fault = some .stackOverflow ∧ (halted []).CycleNext :=
  ⟨rfl, .inl rfl⟩
theorem witness_HaltedCoreOnlyLoadsOrResets_load : (halted [.load [0x12]]).fault = some .stackOverflow ∧
    (halted [.load [0x12]]).requests = .load [0x12] :: [] := ⟨rfl, rfl⟩
theorem witness_HaltedCoreOnlyLoadsOrResets_reset : (halted [.reset]).fault = some .stackOverflow ∧
    step (halted [.reset]) = .next (stepped (halted [.reset])) ∧ (stepped (halted [.reset])).fault = none :=
  ⟨rfl, rfl, rfl⟩

/-- The one hypothesis of LdByteLoadsConstant, AddByteWrapsAndWritesNoFlag, LdRegCopiesRegister,
BitwiseOperationsWriteNoFlag, AddRegWritesSumThenCarry, SubRegWritesDifferenceThenNoBorrow,
SubnRegWritesReverseDifferenceThenNoBorrow, ShiftsWriteResultThenBitShiftedOut, AddIWrapsAtSixteenBits,
LdFPointsAtGlyph, ClsClearsEveryPixel, LdVxDTReadsTimerBeforeTheTick, TimerWritesAreTickedInTheSameCycle and
RndMasksTheRandomByte: right after reset, and at the highest `pc`. -/
theorem witness_NextPcInRange : LegalPc (State.reset.pc.toNat + 2) ∧ LegalPc ((cpu 0xFFD 0x0000 []).pc.toNat + 2) := by
  decide
theorem witness_LdISetsIndex : (0xFFF : Word).toNat ≤ 0xFFF ∧ LegalPc ((cpu 0xFFD 0 []).pc.toNat + 2) := by decide

theorem witness_JpSetsPcOrFaults_jumps : (0x200 : Word).toNat ≤ 0xFFF ∧ 0x200 ≤ (0x200 : Word).toNat ∧
    (0xFFF : Word).toNat ≤ 0xFFF ∧ 0x200 ≤ (0xFFF : Word).toNat := by decide
theorem witness_JpSetsPcOrFaults_faults : (0x1FF : Word).toNat ≤ 0xFFF ∧ (0x1FF : Word).toNat < 0x200 := by decide
theorem witness_CallPushesReturnAddressOrFaults_pushes : (0x200 : Word).toNat ≤ 0xFFF ∧
    LegalPc (withStack (cpu 0xFFE 0 []) 15 0).pc.toNat ∧ (withStack (cpu 0xFFE 0 []) 15 0).sp.val < 16 ∧
    0x200 ≤ (0x200 : Word).toNat := by decide
theorem witness_CallPushesReturnAddressOrFaults_full : (0x1FF : Word).toNat ≤ 0xFFF ∧
    LegalPc (withStack (cpu 0x200 0 []) 16 0).pc.toNat ∧ (withStack (cpu 0x200 0 []) 16 0).sp.val = 16 := by decide
theorem witness_CallPushesReturnAddressOrFaults_faults : (0x1FF : Word).toNat ≤ 0xFFF ∧
    LegalPc (withStack (cpu 0x200 0 []) 15 0).pc.toNat ∧ (withStack (cpu 0x200 0 []) 15 0).sp.val < 16 ∧
    (0x1FF : Word).toNat < 0x200 := by decide
theorem witness_RetPopsReturnAddressOrFaults_pops : (withStack (cpu 0x200 0 []) 16 0xFFF).sp.val = (15 : Fin 16).val + 1 ∧
    LegalPc ((withStack (cpu 0x200 0 []) 16 0xFFF).stack[(15 : Fin 16)]).toNat := by decide
theorem witness_RetPopsReturnAddressOrFaults_faults : (withStack (cpu 0x200 0 []) 1 0x1000).sp.val = (0 : Fin 16).val + 1 ∧
    ¬ LegalPc ((withStack (cpu 0x200 0 []) 1 0x1000).stack[(0 : Fin 16)]).toNat := by decide
theorem witness_RetPopsReturnAddressOrFaults_empty : State.reset.sp.val = 0 := by decide
theorem witness_ConstantSkipsAdvanceByFourOrTwo_inRange : (cpu 0xFFB 0 [(3, 5)]).V[(3 : Reg)] = 5 ∧
    (cpu 0xFFB 0 [(3, 5)]).V[(3 : Reg)] ≠ 6 ∧ LegalPc ((cpu 0xFFB 0 [(3, 5)]).pc.toNat + 4) ∧
    LegalPc ((cpu 0xFFB 0 [(3, 5)]).pc.toNat + 2) := by decide
theorem witness_ConstantSkipsAdvanceByFourOrTwo_outside : (cpu 0xFFE 0 [(3, 5)]).V[(3 : Reg)] = 5 ∧
    (cpu 0xFFE 0 [(3, 5)]).V[(3 : Reg)] ≠ 6 ∧ ¬ LegalPc ((cpu 0xFFE 0 [(3, 5)]).pc.toNat + 4) ∧
    ¬ LegalPc ((cpu 0xFFE 0 [(3, 5)]).pc.toNat + 2) := by decide
theorem witness_RegisterSkipsAdvanceByFourOrTwo_inRange :
    (cpu 0xFFB 0 [(1, 9)]).V[(2 : Reg)] = (cpu 0xFFB 0 [(1, 9)]).V[(3 : Reg)] ∧
    (cpu 0xFFB 0 [(1, 9)]).V[(1 : Reg)] ≠ (cpu 0xFFB 0 [(1, 9)]).V[(2 : Reg)] ∧
    LegalPc ((cpu 0xFFB 0 [(1, 9)]).pc.toNat + 4) ∧ LegalPc ((cpu 0xFFB 0 [(1, 9)]).pc.toNat + 2) := by decide
theorem witness_RegisterSkipsAdvanceByFourOrTwo_outside :
    (cpu 0xFFE 0 [(1, 9)]).V[(2 : Reg)] = (cpu 0xFFE 0 [(1, 9)]).V[(3 : Reg)] ∧
    (cpu 0xFFE 0 [(1, 9)]).V[(1 : Reg)] ≠ (cpu 0xFFE 0 [(1, 9)]).V[(2 : Reg)] ∧
    ¬ LegalPc ((cpu 0xFFE 0 [(1, 9)]).pc.toNat + 4) ∧ ¬ LegalPc ((cpu 0xFFE 0 [(1, 9)]).pc.toNat + 2) := by decide
theorem witness_JpV0AddsV0OrFaults_jumps : (0x101 : Word).toNat ≤ 0xFFF ∧
    LegalPc ((0x101 : Word).toNat + ((cpu 0x300 0 [(0, 0xFF)]).V[(0 : Reg)]).toNat) := by decide
theorem witness_JpV0AddsV0OrFaults_faults : (0xFFF : Word).toNat ≤ 0xFFF ∧
    ¬ LegalPc ((0xFFF : Word).toNat + ((cpu 0x300 0 [(0, 1)]).V[(0 : Reg)]).toNat) := by decide

theorem witness_LdBStoresDecimalDigitsOrFaults_stores : (withI (cpu 0xFFD 0 []) 0xFFD).mem.wf = true ∧
    LegalPc ((withI (cpu 0xFFD 0 []) 0xFFD).pc.toNat + 2) ∧ (withI (cpu 0xFFD 0 []) 0xFFD).I.toNat + 2 ≤ 0xFFF := by decide
theorem witness_LdBStoresDecimalDigitsOrFaults_faults : (withI (cpu 0x200 0 []) 0xFFE).mem.wf = true ∧
    LegalPc ((withI (cpu 0x200 0 []) 0xFFE).pc.toNat + 2) ∧ (withI (cpu 0x200 0 []) 0xFFE).I.toNat + 2 > 0xFFF := by decide
theorem witness_RegisterDumpStoresFirstRegistersOrFaults_stores : (withI (cpu 0x200 0 []) 0xFF0).mem.wf = true ∧
    LegalPc ((withI (cpu 0x200 0 []) 0xFF0).pc.toNat + 2) ∧
    (withI (cpu 0x200 0 []) 0xFF0).I.toNat + (15 : Reg).val ≤ 0xFFF := by decide
theorem witness_RegisterDumpStoresFirstRegistersOrFaults_faults : (withI (cpu 0x200 0 []) 0x1000).mem.wf = true ∧
    LegalPc ((withI (cpu 0x200 0 []) 0x1000).pc.toNat + 2) ∧
    (withI (cpu 0x200 0 []) 0x1000).I.toNat + (0 : Reg).val > 0xFFF := by decide
theorem witness_RegisterLoadReadsFirstRegistersOrFaults_loads : LegalPc ((withI (cpu 0x200 0 []) 0xFFF).pc.toNat + 2) ∧
    (withI (cpu 0x200 0 []) 0xFFF).I.toNat + (0 : Reg).val ≤ 0xFFF := by decide
theorem witness_RegisterLoadReadsFirstRegistersOrFaults_faults : LegalPc ((withI (cpu 0x200 0 []) 0xFFF).pc.toNat + 2) ∧
    (withI (cpu 0x200 0 []) 0xFFF).I.toNat + (1 : Reg).val > 0xFFF := by decide

/-- A sprite row of eight 1 bits at 0x300, and pixel (0, 0) on. -/
def lit : State :=
  { withI (withMem (cpu 0x200 0xD121 []) 0x300 [0xFF]) 0x300 with fb := Framebuffer.blank.setPixel 0 0 true }

/-- The same with no pixel on. -/
def unlit : State := withI (withMem (cpu 0x200 0xD121 []) 0x300 [0xFF]) 0x300

theorem witness_DrwFlipsExactlyTheCoveredPixels_empty : (0 : Nat) ≤ 15 ∧
    LegalPc ((withI (cpu 0xFFD 0 []) 0xFFFF).pc.toNat + 2) := by decide
theorem witness_DrwFlipsExactlyTheCoveredPixels_top : (15 : Nat) ≤ 15 ∧
    (withI (cpu 0x200 0 []) 0xFF1).I.toNat + 15 - 1 ≤ 0xFFF ∧ LegalPc ((withI (cpu 0x200 0 []) 0xFF1).pc.toNat + 2) := by decide
theorem witness_DrwFlipsExactlyTheCoveredPixels_collides : lit.I.toNat + 1 - 1 ≤ 0xFFF ∧ LegalPc (lit.pc.toNat + 2) ∧
    ∃ px py, Covers lit 1 2 1 px py ∧ lit.fb.pixel px py = true :=
  ⟨by decide, by decide, 0, 0, ⟨0, 0, by decide⟩, by decide⟩
theorem witness_DrwFlipsExactlyTheCoveredPixels_misses : unlit.I.toNat + 1 - 1 ≤ 0xFFF ∧ LegalPc (unlit.pc.toNat + 2) ∧
    ¬ ∃ px py, Covers unlit 1 2 1 px py ∧ unlit.fb.pixel px py = true :=
  ⟨by decide, by decide, fun ⟨px, py, _, h⟩ => Bool.false_ne_true ((Framebuffer.pixel_blank px py).symm.trans h)⟩
theorem witness_DrawingTwiceRestoresTheScreen : (1 : Nat) ≤ 15 ∧ (1 : Reg) ≠ VF ∧ (2 : Reg) ≠ VF ∧
    Completes (.drw 1 2 1) unlit ∧ Completes (.drw 1 2 1) (after (.drw 1 2 1) unlit) ∧
    (∃ px py, Covers unlit 1 2 1 px py) ∧ ∀ px py, Covers unlit 1 2 1 px py → unlit.fb.pixel px py = false :=
  ⟨by decide, by decide, by decide, ⟨by decide, rfl, by decide⟩, ⟨by decide, rfl, by decide⟩, ⟨0, 0, 0, 0, by decide⟩,
    fun px py _ => Framebuffer.pixel_blank px py⟩

theorem witness_KeySkipsTestTheKeyOfThisCycle_held :
    (7 : Fin 16).val = ((cpu 0xFFB 0 [(1, 0x17)] (pressing [7] 0)).V[(1 : Reg)]).toNat % 16 ∧
    (cpu 0xFFB 0 [(1, 0x17)] (pressing [7] 0)).input.keys[(7 : Fin 16)] = true ∧
    LegalPc ((cpu 0xFFB 0 [(1, 0x17)] (pressing [7] 0)).pc.toNat + 4) := by decide
theorem witness_KeySkipsTestTheKeyOfThisCycle_free :
    (7 : Fin 16).val = ((cpu 0xFFB 0 [(1, 7)]).V[(1 : Reg)]).toNat % 16 ∧
    (cpu 0xFFB 0 [(1, 7)]).input.keys[(7 : Fin 16)] = false ∧ LegalPc ((cpu 0xFFB 0 [(1, 7)]).pc.toNat + 4) := by decide
theorem witness_KeySkipsTestTheKeyOfThisCycle_outside :
    (15 : Fin 16).val = ((cpu 0xFFE 0 [(1, 0xFF)]).V[(1 : Reg)]).toNat % 16 ∧
    (cpu 0xFFE 0 [(1, 0xFF)]).input.keys[(15 : Fin 16)] = false ∧
    ¬ LegalPc ((cpu 0xFFE 0 [(1, 0xFF)]).pc.toNat + 4) ∧ ¬ LegalPc ((cpu 0xFFE 0 [(1, 0xFF)]).pc.toNat + 2) := by decide
theorem witness_LdVxKWaitsOrTakesTheSmallestKey_waits : LegalPc (cpu 0x204 0 []).pc.toNat ∧
    ∀ k : Fin 16, (cpu 0x204 0 []).input.keys[k] = false := by decide
theorem witness_LdVxKWaitsOrTakesTheSmallestKey_takes : LegalPc ((cpu 0x204 0 [] (pressing [3, 9] 0)).pc.toNat + 2) ∧
    (cpu 0x204 0 [] (pressing [3, 9] 0)).input.keys[(3 : Fin 16)] = true ∧
    ∀ j : Fin 16, j < 3 → (cpu 0x204 0 [] (pressing [3, 9] 0)).input.keys[j] = false := by decide
theorem witness_InputsReachOnlyKeyAndRandomInstructions_keys : (∀ x, Instr.cls ≠ .skp x) ∧ (∀ x, Instr.cls ≠ .sknp x) ∧
    (∀ x, Instr.cls ≠ .ldVxK x) ∧ (pressing [3] 0x55).rand = (pressing [9] 0x55).rand := by decide
theorem witness_InputsReachOnlyKeyAndRandomInstructions_random : (∀ x kk, Instr.cls ≠ .rnd x kk) ∧
    (pressing [3] 0x55).keys = (pressing [3] 0xAA).keys :=
  ⟨fun _ _ => Instr.noConfusion, by decide⟩

theorem witness_PcFollowsTheControlFlowTable : Completes (.jp 0x300) State.reset := ⟨by decide, rfl, by decide⟩
theorem witness_AddressingFaultExactlyWhenOutOfRange : State.reset.fault = none ∧
    exec (.jp 0x1FF) State.reset = .next (after (.jp 0x1FF) State.reset) ∧
    (after (.jp 0x1FF) State.reset).fault = some .addressing := ⟨by decide, rfl, by decide⟩
theorem witness_StackOverflowOnlyByCallOnAFullStack : (withStack (cpu 0x300 0x2400 []) 16 0x202).sp.val = 16 ∧
    (withStack (cpu 0x300 0x2400 []) 16 0x202).fault = none ∧
    step (withStack (cpu 0x300 0x2400 []) 16 0x202) = .next (stepped (withStack (cpu 0x300 0x2400 []) 16 0x202)) ∧
    (stepped (withStack (cpu 0x300 0x2400 []) 16 0x202)).fault = some .stackOverflow :=
  ⟨by decide, by decide, rfl, by decide⟩
theorem witness_StackUnderflowOnlyByRetOnAnEmptyStack : (cpu 0x200 0x00EE []).sp.val = 0 ∧
    (cpu 0x200 0x00EE []).fault = none ∧ step (cpu 0x200 0x00EE []) = .next (stepped (cpu 0x200 0x00EE [])) ∧
    (stepped (cpu 0x200 0x00EE [])).fault = some .stackUnderflow := ⟨by decide, by decide, rfl, by decide⟩
theorem witness_FaultsArePrecise : (cpu 0xFFE 0x6012 []).fault = none ∧
    step (cpu 0xFFE 0x6012 []) = .next (stepped (cpu 0xFFE 0x6012 [])) ∧
    (stepped (cpu 0xFFE 0x6012 [])).fault = some .addressing := ⟨by decide, rfl, by decide⟩

theorem witness_RegistersChangeOnlyAsDestinations :
    exec (.addReg 1 2) State.reset = .next (after (.addReg 1 2) State.reset) ∧ ¬ mayWrite (.addReg 1 2) 2 :=
  ⟨rfl, fun h => h.elim (by decide) (by decide)⟩
theorem witness_IndexChangesOnlyByIndexInstructions :
    exec (.ldVxMem 3) State.reset = .next (after (.ldVxMem 3) State.reset) ∧ (∀ nnn, Instr.ldVxMem 3 ≠ .ldI nnn) ∧
    (∀ x, Instr.ldVxMem 3 ≠ .addI x) ∧ (∀ x, Instr.ldVxMem 3 ≠ .ldF x) :=
  ⟨rfl, fun _ => Instr.noConfusion, fun _ => Instr.noConfusion, fun _ => Instr.noConfusion⟩
theorem witness_StackChangesOnlyByCallAndRet : exec .cls State.reset = .next (after .cls State.reset) ∧
    (∀ nnn, Instr.cls ≠ .call nnn) ∧ Instr.cls ≠ .ret ∧ (0 : Fin 16).val < (withStack State.reset 1 0x202).sp.val :=
  ⟨rfl, fun _ => Instr.noConfusion, by decide, by decide⟩
theorem witness_FramebufferChangesOnlyByClsAndDrw :
    exec (.ldI 0x300) State.reset = .next (after (.ldI 0x300) State.reset) ∧ Instr.ldI 0x300 ≠ .cls ∧
    ∀ x y n, Instr.ldI 0x300 ≠ .drw x y n := ⟨rfl, by decide, fun _ _ _ => Instr.noConfusion⟩
theorem witness_MemoryChangesOnlyInTheStoredBytes : exec (.ldB 0) unlit = .next (after (.ldB 0) unlit) ∧
    stores unlit (.ldB 0) = some (0x300, 3) ∧ 0x300 + 3 ≤ 0x303 ∧ stores unlit .cls = none := ⟨rfl, rfl, by decide, rfl⟩

theorem witness_StepOfFFFF : StepsOk (cpu 0x200 0xFFFF []) :=
  ⟨by decide, .inr ⟨_, _, rfl⟩, rfl, by decide⟩
/-- The word 0xFFFF runs no instruction. -/
theorem runs_nothing (i : Instr) : ¬ (cpu 0x200 0xFFFF []).Runs i := by
  rintro ⟨_, _, op, hw, hd⟩
  have h : (cpu 0x200 0xFFFF []).fetch = .ok 0xFFFF := by decide
  rw [h] at hw
  cases hw
  rw [show decode 0xFFFF = .error .unrecognizedF by decide] at hd
  cases hd
theorem witness_TimersTickOncePerCycle : StepsOk (cpu 0x200 0xFFFF []) ∧ (∀ x, ¬ (cpu 0x200 0xFFFF []).Runs (.ldDT x)) ∧
    ∀ x, ¬ (cpu 0x200 0xFFFF []).Runs (.ldST x) := ⟨witness_StepOfFFFF, fun _ => runs_nothing _, fun _ => runs_nothing _⟩
theorem witness_TimersTickOncePerCycle_fault : (cpu 0xFFE 0x6012 []).fault = none ∧ (cpu 0xFFE 0x6012 []).CycleNext ∧
    step (cpu 0xFFE 0x6012 []) = .next (stepped (cpu 0xFFE 0x6012 [])) ∧ (stepped (cpu 0xFFE 0x6012 [])).fault ≠ none :=
  ⟨by decide, .inr ⟨_, _, rfl⟩, rfl, by decide⟩
theorem witness_DelayTimerCountsDownAlongARun :
    RunsThrough (fun u => u.fault = none ∧ u.CycleNext ∧ ∀ x, ¬ u.Runs (.ldDT x)) 1 (cpu 0x200 0xFFFF [])
      (stepped (cpu 0x200 0xFFFF [])) ∧ (stepped (cpu 0x200 0xFFFF [])).fault = none :=
  ⟨⟨⟨by decide, .inr ⟨_, _, rfl⟩, fun _ => runs_nothing _⟩, _, rfl, rfl⟩, by decide⟩
theorem witness_RedrawExactlyOnClsOrDrw : StepsOk (cpu 0x200 0x00E0 []) ∧
    (stepped (cpu 0x200 0x00E0 [])).result = some (.ok true false) := ⟨⟨by decide, .inr ⟨_, _, rfl⟩, rfl, by decide⟩, by decide⟩
theorem witness_CallThenRetComesBack : Completes (.call 0x20A) State.reset ∧ LegalPc (State.reset.pc.toNat + 2) :=
  ⟨⟨by decide, rfl, by decide⟩, by decide⟩
theorem witness_DumpThenLoadRestoresRegisters : unlit.mem.wf = true ∧ Completes (.ldMemVx 3) unlit ∧
    Completes (.ldVxMem 3) { after (.ldMemVx 3) unlit with V := Vector.replicate 16 0x99 } :=
  ⟨by decide, ⟨by decide, rfl, by decide⟩, ⟨by decide, rfl, by decide⟩⟩
/-- P7 of 95_test_vectors.md: the dump at 0x206 overwrites the word at 0x208. -/
def selfModifying : State := withI (cpu 0x206 0xF155 [(0, 0x12), (1, 0x08)]) 0x208
theorem witness_StoresAreSeenByTheNextFetch : selfModifying.mem.wf = true ∧ Completes (.ldMemVx 1) selfModifying ∧
    (0 : Reg) < 1 ∧ (after (.ldMemVx 1) selfModifying).pc.toNat = selfModifying.I.toNat + (0 : Reg).val :=
  ⟨by decide, ⟨by decide, rfl, by decide⟩, by decide, by decide⟩

theorem witness_ResetLeavesTheResetValues : (halted [.reset]).requests = .reset :: [] := rfl
theorem witness_LoadWritesFontAndProgramOnly : (halted [.load [0x12, 0x0C]]).mem.wf = true ∧
    (halted [.load [0x12, 0x0C]]).requests = .load [0x12, 0x0C] :: [] := ⟨by decide, rfl⟩
/-- The invariant's clauses for a state whose last request was answered nothing. -/
theorem inv_of_noResult {s : State} (hm : s.mem.wf = true) (hl : 0x200 ≤ s.pc.toNat) (hh : s.pc.toNat ≤ 0xFFF)
    (hr : ∀ k : Fin 16, (s.stack[k]).toNat ≤ 0x1000) (hq : ∀ k : Fin 16, k.val < s.sp.val → 0x202 ≤ (s.stack[k]).toNat)
    (hn : s.result = none) : s.Inv :=
  ⟨hm, hl, hh, hr, hq, fun k h => (by rw [hn] at h; cases h), fun a b h => (by rw [hn] at h; cases h)⟩
theorem witness_EveryStepKeepsTheInvariant : (withStack (cpu 0x200 0x220A []) 1 0x202).Inv ∧
    step (withStack (cpu 0x200 0x220A []) 1 0x202) = .next (stepped (withStack (cpu 0x200 0x220A []) 1 0x202)) :=
  ⟨inv_of_noResult (by decide) (by decide) (by decide) (by decide) (by decide) rfl, rfl⟩
theorem witness_RetFaultsOnlyOnTheTopReturnAddress : (withStack (cpu 0x200 0x00EE []) 1 0x1000).Inv ∧
    (withStack (cpu 0x200 0x00EE []) 1 0x1000).Runs .ret ∧
    step (withStack (cpu 0x200 0x00EE []) 1 0x1000) = .next (stepped (withStack (cpu 0x200 0x00EE []) 1 0x1000)) ∧
    (stepped (withStack (cpu 0x200 0x00EE []) 1 0x1000)).fault = some .addressing :=
  ⟨inv_of_noResult (by decide) (by decide) (by decide) (by decide) (by decide) rfl,
    ⟨by decide, .inr ⟨_, _, rfl⟩, 0x00EE, by decide, by decide⟩, rfl, by decide⟩

end Sys2Proof.Tests
end

section
/-! Proofs of the statements on the encoding (30_encoding.md): a list of bytes is read as its first two bytes, joined
big-endian (R80). -/

namespace Sys2Proof.Proofs.Encoding

theorem joinBytes_eq_ofNat (hi lo : Byte) : joinBytes hi lo = BitVec.ofNat 16 (hi.toNat * 256 + lo.toNat) := by
  rw [← joinBytes_toNat, BitVec.ofNat_toNat, BitVec.setWidth_eq]

theorem decodeBytes_of_length_lt_two {bytes : List Byte} (h : bytes.length < 2) :
    decodeBytes bytes = .error .tooFewBytes := by
  match bytes, h with
  | [], _ => rfl
  | [_], _ => rfl

theorem decodeBytes_cons_cons_eq_ok_iff (hi lo : Byte) (rest : List Byte) (i : Instr × List Byte) :
    decodeBytes (hi :: lo :: rest) = .ok i ↔ decode (joinBytes hi lo) = .ok i.1 ∧ i.2 = rest := by
  obtain ⟨instr, tail⟩ := i
  cases hd : decode (joinBytes hi lo) with
  | ok j => simp [decodeBytes, hd, eq_comm (a := rest)]
  | error e => simp [decodeBytes, hd]

/-- Settles O6: fewer than two bytes are rejected, and the word of two or more is the big-endian join of the first
two. -/
theorem instructionsAreTwoBytesBigEndian : Obligations.InstructionsAreTwoBytesBigEndian := by
  unfold Obligations.InstructionsAreTwoBytesBigEndian
  constructor
  · intro bytes i h
    rw [decodeBytes_of_length_lt_two h]
    exact nofun
  · intro hi lo rest i
    rw [← joinBytes_eq_ofNat]
    exact decodeBytes_cons_cons_eq_ok_iff hi lo rest i

end Sys2Proof.Proofs.Encoding
end

section
/-! Proofs of the statements on the cycle (40_cycle.md): the fetch (R101) and the unrecognized word (R109). -/

namespace Sys2Proof.Proofs.Cycle

open Sys2Proof.Machine Sys2Proof.Spec

/-! ## Facts about steps and about cycles that retire -/

theorem step_of_fetchFault {s : State} {k : Fault} (hfault : s.fault = none) (hcycle : s.CycleNext)
    (hfetch : s.fetch = .error k) : step s = .next (s.takeFault k) := by
  rw [step_of_cycleNext hcycle, runCycle_fetchFault hfault hfetch]

theorem step_of_unrecognized {s : State} {op : Word} {e : Reject} (hfault : s.fault = none) (hcycle : s.CycleNext)
    (hfetch : s.fetch = .ok op) (hdecode : decode op = .error e) : step s = .next (s.retire { state := s }) := by
  rw [step_of_cycleNext hcycle, runCycle_unrecognized hfault hfetch hdecode]

/-- A cycle whose execute step leaves the latch alone and whose new `pc` is in range retires (R104, R106). -/
theorem retired_of_legal {s : State} {e : Effect} {a : Nat} (ha : e.ctl.target s.pc = a) (hlegal : LegalPc a)
    (hfault : e.state.fault = s.fault) : Retired s (s.retired e) a e.redraw where
  pc := (State.retire_in_range ha hlegal).2
  fault := hfault
  result := rfl

/-- An execute step that changes nothing and draws nothing: only `pc` and the timers differ after the cycle. -/
theorem onlyPc_of_unchanged {s : State} {ctl : Ctl} {a : Nat} (ha : ctl.target s.pc = a) (hlegal : LegalPc a) :
    OnlyPc s (s.retired { state := s, ctl }) a where
  rest :=
    { retired := retired_of_legal ha hlegal rfl
      ticked := ⟨tick_toNat s.DT, tick_toNat s.ST⟩
      index := rfl
      stack := ⟨rfl, fun _ => rfl⟩
      fb := fun _ _ => rfl
      mem := fun _ => rfl }
  regs := fun _ => rfl

/-! ## The statements -/

/-- Settles O7: below 0xFFF both bytes are in memory and the fetch is their join; at 0xFFF the second byte is outside,
and the cycle takes the fault of the fetch. -/
theorem fetchJoinsTwoBytesOrFaultsAtTheTop : Obligations.FetchJoinsTwoBytesOrFaultsAtTheTop := by
  unfold Obligations.FetchJoinsTwoBytesOrFaultsAtTheTop
  intro s _
  constructor
  · intro hbelow
    exact ⟨_, State.fetch_ok hbelow, joinBytes_toNat _ _⟩
  · intro htop
    have hfetch : s.fetch = .error .addressing := State.fetch_top (by omega)
    exact ⟨hfetch, fun hfault hcycle => ⟨_, step_of_fetchFault hfault hcycle hfetch, State.takeFault_fault _ _⟩⟩

/-- Settles O9: the cycle of an unrecognized word is the end of a cycle whose execute step changed nothing, so the range
check of `pc + 2` alone decides between the advance and the fault. -/
theorem unrecognizedWordIsANoOp : Obligations.UnrecognizedWordIsANoOp := by
  unfold Obligations.UnrecognizedWordIsANoOp
  intro s op e hfault hcycle hfetch hdecode
  rw [step_of_unrecognized hfault hcycle hfetch hdecode]
  have htarget : Ctl.advance2.target s.pc = s.pc.toNat + 2 := rfl
  constructor
  · intro hlegal
    rw [(State.retire_in_range htarget hlegal).1]
    exact ⟨_, rfl, onlyPc_of_unchanged htarget hlegal⟩
  · intro hillegal
    rw [State.retire_out_of_range htarget hillegal]
    exact ⟨_, rfl, State.takeFault_fault _ _⟩

end Sys2Proof.Proofs.Cycle
end

section
/-! Proofs of the statements on control flow (41_control_flow.md): the jumps (R121, R128), the skips (R123 to R126) and
CALL (R122). -/

namespace Sys2Proof.Proofs.ControlFlow

open Sys2Proof.Machine Sys2Proof.Spec Sys2Proof.Proofs.Cycle

/-! ## Instructions that write nothing but `pc` -/

/-- An instruction whose execute step only chooses the control-flow result goes to that result's candidate `pc`, or
fails its range check (R103, R104). -/
theorem goesTo_of_exec_unchanged {i : Instr} {s : State} {ctl : Ctl} {a : Nat}
    (hexec : exec i s = .next (s.retire { state := s, ctl })) (ha : ctl.target s.pc = a) : GoesTo i s a := by
  constructor
  · intro hlegal
    exact ⟨_, hexec.trans (congrArg _ (State.retire_in_range ha hlegal).1), onlyPc_of_unchanged ha hlegal⟩
  · intro hillegal
    exact ⟨_, hexec.trans (congrArg _ (State.retire_out_of_range ha hillegal)), State.takeFault_fault _ _,
      State.takeFault_result _ _⟩

/-- The skip law (R127): an instruction that skips on `c` advances by 4 when `c` is true. -/
theorem goesTo_four_of_skip {i : Instr} {s : State} {c : Bool} (hexec : exec i s = .next (s.retire (skipIf c s)))
    (hc : c = true) : GoesTo i s (s.pc.toNat + 4) :=
  goesTo_of_exec_unchanged (ctl := .advance4) (by rw [hexec, skipIf_true hc]) rfl

/-- The skip law (R127): an instruction that skips on `c` advances by 2 when `c` is false. -/
theorem goesTo_two_of_skip {i : Instr} {s : State} {c : Bool} (hexec : exec i s = .next (s.retire (skipIf c s)))
    (hc : c = false) : GoesTo i s (s.pc.toNat + 2) :=
  goesTo_of_exec_unchanged (ctl := .advance2) (by rw [hexec, skipIf_false hc]) rfl

/-- The pair of skips that compare the same two bytes, one on equality and one on inequality. -/
theorem skips_on_eq_and_on_ne {se sne : Instr} {s : State} {a b : Byte}
    (hse : exec se s = .next (s.retire (skipIf (a == b) s)))
    (hsne : exec sne s = .next (s.retire (skipIf (a != b) s))) :
    (a = b → GoesTo se s (s.pc.toNat + 4)) ∧ (a ≠ b → GoesTo se s (s.pc.toNat + 2)) ∧
    (a ≠ b → GoesTo sne s (s.pc.toNat + 4)) ∧ (a = b → GoesTo sne s (s.pc.toNat + 2)) := by
  refine ⟨fun heq => ?_, fun hne => ?_, fun hne => ?_, fun heq => ?_⟩
  · exact goesTo_four_of_skip hse (beq_iff_eq.mpr heq)
  · exact goesTo_two_of_skip hse (beq_eq_false_iff_ne.mpr hne)
  · exact goesTo_four_of_skip hsne (bne_iff_ne.mpr hne)
  · exact goesTo_two_of_skip hsne (bne_eq_false_iff_eq.mpr heq)

theorem jp_goesTo (nnn : Word) (s : State) : GoesTo (.jp nnn) s nnn.toNat :=
  goesTo_of_exec_unchanged (exec_jp nnn s) rfl

/-! ## CALL -/

/-- The state CALL's execute step leaves when an entry is free (R122). -/
def pushed (s : State) (h : s.sp.val < 16) : State :=
  { s with stack := s.stack.set s.sp.val (s.pc + 2), sp := ⟨s.sp.val + 1, by omega⟩ }

theorem exec_call_eq_retire_pushed (nnn : Word) {s : State} (h : s.sp.val < 16) :
    exec (.call nnn) s = .next (s.retire { state := pushed s h, ctl := .jump nnn.toNat }) :=
  exec_call_ok nnn h

/-- The return address of a CALL at a legal `pc` fits the 16-bit entry: the sum does not wrap. -/
theorem returnAddress_toNat {pc : Word} (h : LegalPc pc.toNat) : (pc + 2).toNat = pc.toNat + 2 := by
  have : (2 : Word).toNat = 2 := rfl
  rw [BitVec.toNat_add]
  omega

theorem pushed_stack_toNat {s : State} (h : s.sp.val < 16) (hpc : LegalPc s.pc.toNat) (k : Fin 16) :
    ((pushed s h).stack[k]).toNat = if k.val = s.sp.val then s.pc.toNat + 2 else (s.stack[k]).toNat := by
  simp only [pushed, Fin.getElem_fin, Vector.getElem_set, eq_comm (a := s.sp.val)]
  split
  · exact returnAddress_toNat hpc
  · rfl

/-! ## The statements -/

/-- Settles O20: a full stack faults in the push; otherwise the push has happened in the execute step, and the range check
of the target decides whether the cycle retires with it or takes a fault from the state before it. -/
theorem callPushesReturnAddressOrFaults : Obligations.CallPushesReturnAddressOrFaults := by
  unfold Obligations.CallPushesReturnAddressOrFaults
  intro nnn s hnnn hpc
  have htarget : (Ctl.jump nnn.toNat).target s.pc = nnn.toNat := rfl
  refine ⟨?pushes, ?full, ?below⟩
  case pushes =>
    intro hfree hlow
    have hlegal : LegalPc nnn.toNat := ⟨hlow, hnnn⟩
    rw [exec_call_eq_retire_pushed nnn hfree, (State.retire_in_range htarget hlegal).1]
    exact ⟨_, rfl, retired_of_legal htarget hlegal rfl, ⟨tick_toNat s.DT, tick_toNat s.ST⟩, fun _ => rfl, rfl,
      fun _ _ => rfl, fun _ => rfl, rfl, pushed_stack_toNat hfree hpc⟩
  case full =>
    intro hfull
    exact ⟨_, exec_call_full nnn hfull, State.takeFault_fault _ _, rfl, fun _ => rfl⟩
  case below =>
    intro hfree hbelow
    rw [exec_call_eq_retire_pushed nnn hfree, State.retire_out_of_range htarget (by omega)]
    exact ⟨_, rfl, State.takeFault_fault _ _, rfl, fun _ => rfl⟩

/-- Settles O22: the skip law, on `Vx` compared with the constant. -/
theorem constantSkipsAdvanceByFourOrTwo : Obligations.ConstantSkipsAdvanceByFourOrTwo := by
  unfold Obligations.ConstantSkipsAdvanceByFourOrTwo
  intro x kk s
  exact skips_on_eq_and_on_ne (exec_seByte x kk s) (exec_sneByte x kk s)

/-- Settles O23: the skip law, on `Vx` compared with `Vy`. -/
theorem registerSkipsAdvanceByFourOrTwo : Obligations.RegisterSkipsAdvanceByFourOrTwo := by
  unfold Obligations.RegisterSkipsAdvanceByFourOrTwo
  intro x y s
  exact skips_on_eq_and_on_ne (exec_seReg x y s) (exec_sneReg x y s)

/-- Settles O24: the model's jump target is the unreduced sum itself, so both bounds of the range check apply to it. -/
theorem jpV0AddsV0OrFaults : Obligations.JpV0AddsV0OrFaults := by
  unfold Obligations.JpV0AddsV0OrFaults
  intro nnn s _
  exact goesTo_of_exec_unchanged (exec_jpV0 nnn s) rfl

/-- Settles O19: a 12-bit target cannot exceed 0xFFF, so only the lower bound of the range check is left. -/
theorem jpSetsPcOrFaults : Obligations.JpSetsPcOrFaults := by
  unfold Obligations.JpSetsPcOrFaults
  intro nnn s hnnn
  obtain ⟨hgoes, hraises⟩ := jp_goesTo nnn s
  exact ⟨fun hlow => hgoes ⟨hlow, hnnn⟩, fun hlow => hraises (by omega)⟩

end Sys2Proof.Proofs.ControlFlow
end

section
/-! Proofs of the statements on the constants and the register ALU group (42_alu.md): the instructions that write one
register (R140 to R145) and those that write a result and then the flag (R146, R147, R152). -/

namespace Sys2Proof.Proofs.Alu

open Sys2Proof.Machine Sys2Proof.Spec Sys2Proof.Proofs.Cycle

/-! ## What an instruction that writes registers only leaves -/

/-- An instruction whose execute step replaces the registers and touches nothing else retires with these registers
and the frame of the register instructions. -/
theorem onlyRegisters_of_exec_registers {i : Instr} {s : State} {V : Vector Byte 16}
    (hexec : exec i s = .next (s.retire { state := { s with V } })) (hlegal : LegalPc (s.pc.toNat + 2)) :
    ∃ t, exec i s = .next t ∧ OnlyRegisters s t (s.pc.toNat + 2) ∧ t.V = V := by
  have htarget : Ctl.advance2.target s.pc = s.pc.toNat + 2 := rfl
  rw [(State.retire_in_range htarget hlegal).1] at hexec
  exact ⟨_, hexec,
    { retired := retired_of_legal htarget hlegal rfl
      ticked := ⟨tick_toNat s.DT, tick_toNat s.ST⟩
      index := rfl
      stack := ⟨rfl, fun _ => rfl⟩
      fb := fun _ _ => rfl
      mem := fun _ => rfl }, rfl⟩

/-- An instruction that writes one register, without a flag (R140 to R145). -/
theorem onlyRegisters_of_exec_result {i : Instr} {s : State} {x : Reg} {v : Byte}
    (hexec : exec i s = .next (s.retire { state := s.writeV x v })) (hlegal : LegalPc (s.pc.toNat + 2)) :
    ∃ t, exec i s = .next t ∧ OnlyRegisters s t (s.pc.toNat + 2) ∧ ∀ r : Reg, t.V[r] = if r = x then v else s.V[r] := by
  obtain ⟨t, hnext, honly, hV⟩ := onlyRegisters_of_exec_registers (V := s.V.set x v) hexec hlegal
  exact ⟨t, hnext, honly, fun r => by rw [hV, getElem_setV]⟩

/-- The same, read bit by bit from a result whose bits are known. -/
theorem onlyRegisters_of_exec_result_bits {i : Instr} {s : State} {x : Reg} {v : Byte} {bit : Nat → Bool}
    (hexec : exec i s = .next (s.retire { state := s.writeV x v })) (hbit : ∀ j, v.getLsbD j = bit j)
    (hlegal : LegalPc (s.pc.toNat + 2)) :
    ∃ t, exec i s = .next t ∧ OnlyRegisters s t (s.pc.toNat + 2) ∧
      ∀ (r : Reg) (j : Nat), (t.V[r]).getLsbD j = if r = x then bit j else (s.V[r]).getLsbD j := by
  obtain ⟨t, hnext, honly, hreg⟩ := onlyRegisters_of_exec_result hexec hlegal
  exact ⟨t, hnext, honly, fun r j => by rw [hreg, apply_ite (BitVec.getLsbD · j), hbit]⟩

/-- An instruction that writes its result and then the flag, read as numbers: the flag wins in `VF` (R152). -/
theorem onlyRegisters_of_exec_resultAndFlag {i : Instr} {s : State} {x : Reg} {v : Byte} {b : Bool} {result flag : Nat}
    (hexec : exec i s = .next (s.retire { state := s.writeResultAndFlag x v b })) (hresult : v.toNat = result)
    (hflag : (flagByte b).toNat = flag) (hlegal : LegalPc (s.pc.toNat + 2)) :
    ∃ t, exec i s = .next t ∧ OnlyRegisters s t (s.pc.toNat + 2) ∧
      ∀ r : Reg, (t.V[r]).toNat = if r = VF then flag else if r = x then result else (s.V[r]).toNat := by
  obtain ⟨t, hnext, honly, hV⟩ :=
    onlyRegisters_of_exec_registers (V := (s.V.set x v).set VF (flagByte b)) hexec hlegal
  refine ⟨t, hnext, honly, fun r => ?_⟩
  rw [hV, getElem_resultAndFlag, apply_ite BitVec.toNat, apply_ite BitVec.toNat, hflag, hresult]

/-! ## The flags and the difference as numbers -/

theorem carryOut_toNat (a b : Byte) :
    (flagByte (carryOut a b)).toNat = if a.toNat + b.toNat > 255 then 1 else 0 := by
  simp only [flagByte_toNat, carryOut, decide_eq_true_eq]

theorem noBorrow_toNat (a b : Byte) : (flagByte (noBorrow a b)).toNat = if a.toNat ≥ b.toNat then 1 else 0 := by
  simp only [flagByte_toNat, noBorrow, decide_eq_true_eq]

/-- The wrapped difference, in the spec's form `(a − b + 256) mod 256` (R147, R149). -/
theorem sub_toNat (a b : Byte) : (a - b).toNat = (a.toNat + 256 - b.toNat) % 256 := by
  have := b.isLt
  rw [BitVec.toNat_sub]
  omega

/-! ## The statements -/

/-- Settles O14: each of the three writes the library's bitwise operation to `Vx` alone, and its bits are the operation
on the bits. -/
theorem bitwiseOperationsWriteNoFlag : Obligations.BitwiseOperationsWriteNoFlag := by
  unfold Obligations.BitwiseOperationsWriteNoFlag
  intro x y s hlegal
  refine ⟨?or, ?and, ?xor⟩
  case or => exact onlyRegisters_of_exec_result_bits (exec_orReg x y s) (fun _ => BitVec.getLsbD_or) hlegal
  case and => exact onlyRegisters_of_exec_result_bits (exec_andReg x y s) (fun _ => BitVec.getLsbD_and) hlegal
  case xor => exact onlyRegisters_of_exec_result_bits (exec_xorReg x y s) (fun _ => BitVec.getLsbD_xor) hlegal

/-- Settles O15: the result is the wrapped sum and the flag its carry, both of the registers before the cycle. -/
theorem addRegWritesSumThenCarry : Obligations.AddRegWritesSumThenCarry := by
  unfold Obligations.AddRegWritesSumThenCarry
  intro x y s hlegal
  exact onlyRegisters_of_exec_resultAndFlag (exec_addReg x y s) (BitVec.toNat_add _ _) (carryOut_toNat _ _) hlegal

/-- Settles O16: the result is the wrapped difference and the flag says that no borrow occurred, both of the registers
before the cycle. -/
theorem subRegWritesDifferenceThenNoBorrow : Obligations.SubRegWritesDifferenceThenNoBorrow := by
  unfold Obligations.SubRegWritesDifferenceThenNoBorrow
  intro x y s hlegal
  exact onlyRegisters_of_exec_resultAndFlag (exec_subReg x y s) (sub_toNat _ _) (noBorrow_toNat _ _) hlegal

/-- Settles O11: the execute step is one register write, of the constant. -/
theorem ldByteLoadsConstant : Obligations.LdByteLoadsConstant := by
  unfold Obligations.LdByteLoadsConstant
  intro x kk s hlegal
  exact onlyRegisters_of_exec_result (exec_ldByte x kk s) hlegal

/-- Settles O12: the execute step is one register write, of the wrapped sum; `VF` is a register like the others. -/
theorem addByteWrapsAndWritesNoFlag : Obligations.AddByteWrapsAndWritesNoFlag := by
  unfold Obligations.AddByteWrapsAndWritesNoFlag
  intro x kk s hlegal
  obtain ⟨t, hnext, honly, hreg⟩ := onlyRegisters_of_exec_result (exec_addByte x kk s) hlegal
  refine ⟨t, hnext, honly, fun r => ?_⟩
  rw [hreg, apply_ite BitVec.toNat, BitVec.toNat_add, State.readV_eq]

/-- Settles O13: the execute step is one register write, of `Vy` as it was before the cycle. -/
theorem ldRegCopiesRegister : Obligations.LdRegCopiesRegister := by
  unfold Obligations.LdRegCopiesRegister
  intro x y s hlegal
  exact onlyRegisters_of_exec_result (exec_ldReg x y s) hlegal

end Sys2Proof.Proofs.Alu
end

section
/-! Proofs of the statements on the index register and the memory transfers (43_index_memory.md): LD I (R160), the two
stores at `I` (R163, R164) and the load from `I` (R165). -/

namespace Sys2Proof.Proofs.IndexMemory

open Sys2Proof.Machine Sys2Proof.Spec Sys2Proof.Proofs.Cycle Sys2Proof.Proofs.Alu

/-! ## What a cycle leaves that advances by 2 or stores at `I` -/

/-- An execute step that leaves the latch and the timers alone and advances by 2 ends in a cycle that retires and ticks
both timers; the rest of its state is what the execute step left. -/
theorem retires_of_exec_advance {i : Instr} {s u : State} (hexec : exec i s = .next (s.retire { state := u }))
    (hfault : u.fault = s.fault) (hDT : u.DT = s.DT) (hST : u.ST = s.ST) (hlegal : LegalPc (s.pc.toNat + 2)) :
    exec i s = .next (s.retired { state := u }) ∧
      Retired s (s.retired { state := u }) (s.pc.toNat + 2) false ∧ Ticked s (s.retired { state := u }) := by
  have htarget : Ctl.advance2.target s.pc = s.pc.toNat + 2 := rfl
  refine ⟨?next, retired_of_legal htarget hlegal hfault, ?ticked⟩
  case next => rw [hexec, (State.retire_in_range htarget hlegal).1]
  case ticked => exact ⟨hDT ▸ tick_toNat u.DT, hST ▸ tick_toNat u.ST⟩

/-- An instruction whose execute step stores bytes at `I`, all of them inside memory, leaves the `j`-th one at `I + j`
and everything else as it was, but `pc` and the timers. -/
theorem stores_of_exec_writeSpan {i : Instr} {s : State} {bytes : List Byte}
    (hexec : exec i s = .next (s.retire { state := { s with mem := s.mem.writeSpan s.I.toNat bytes } }))
    (hwf : s.mem.wf = true) (hinside : s.I.toNat + bytes.length ≤ 0x1000)
    (hlegal : LegalPc (s.pc.toNat + 2)) :
    ∃ t, exec i s = .next t ∧ Retired s t (s.pc.toNat + 2) false ∧ Ticked s t ∧
      SameV s t ∧ SameI s t ∧ SameStack s t ∧ SameFb s t ∧
      (∀ (j : Nat) (hj : j < bytes.length), t.mem.read (s.I.toNat + j) = bytes[j]) ∧
      ∀ a, a < s.I.toNat ∨ s.I.toNat + bytes.length ≤ a → t.mem.read a = s.mem.read a := by
  obtain ⟨hnext, hretired, hticked⟩ := retires_of_exec_advance hexec rfl rfl rfl hlegal
  exact ⟨_, hnext, hretired, hticked, fun _ => rfl, rfl, ⟨rfl, fun _ => rfl⟩, fun _ _ => rfl,
    fun _ hj => Memory.read_writeSpan_inside hwf hinside hj, fun _ ha => Memory.read_writeSpan_outside ha⟩

/-! ## The decimal digits as numbers -/

theorem decimalDigits_toNat (v : Byte) :
    (decimalDigits v)[0].toNat = v.toNat / 100 ∧ (decimalDigits v)[1].toNat = v.toNat / 10 % 10 ∧
      (decimalDigits v)[2].toNat = v.toNat % 10 := by
  have := v.isLt
  refine ⟨?_, ?_, ?_⟩ <;>
    simp only [decimalDigits, List.getElem_cons_zero, List.getElem_cons_succ, BitVec.toNat_ofNat] <;> omega

/-! ## The statements -/

/-- Settles O28: the execute step stores the list of the three digits at `I`, or faults in the check of their span. -/
theorem ldBStoresDecimalDigitsOrFaults : Obligations.LdBStoresDecimalDigitsOrFaults := by
  unfold Obligations.LdBStoresDecimalDigitsOrFaults
  intro x s hwf hlegal
  constructor
  · intro hinside
    obtain ⟨t, hnext, hretired, hticked, hV, hI, hstack, hfb, hread, hother⟩ :=
      stores_of_exec_writeSpan (exec_ldB_ok x hinside) hwf (by rw [decimalDigits_length]; omega) hlegal
    obtain ⟨hhundreds, htens, hones⟩ := decimalDigits_toNat (s.readV x)
    refine ⟨t, hnext, hretired, hticked, hV, hI, hstack, hfb, ?hundreds, ?tens, ?ones, hother⟩
    case hundreds => exact (congrArg _ (hread 0 (by simp))).trans hhundreds
    case tens => exact (congrArg _ (hread 1 (by simp))).trans htens
    case ones => exact (congrArg _ (hread 2 (by simp))).trans hones
  · intro houtside
    exact ⟨_, exec_ldB_outside x houtside, State.takeFault_fault _ _, fun _ => rfl⟩

/-- Settles O29: the execute step stores the list of the first `x + 1` registers at `I`, or faults in the check of its
span. -/
theorem registerDumpStoresFirstRegistersOrFaults : Obligations.RegisterDumpStoresFirstRegistersOrFaults := by
  unfold Obligations.RegisterDumpStoresFirstRegistersOrFaults
  intro x s hwf hlegal
  have hlength : (s.firstRegs x).length = x.val + 1 := s.firstRegs_length x
  constructor
  · intro hinside
    obtain ⟨t, hnext, hretired, hticked, hV, hI, hstack, hfb, hread, hother⟩ :=
      stores_of_exec_writeSpan (exec_ldMemVx_ok x hinside) hwf (by rw [hlength]; omega) hlegal
    refine ⟨t, hnext, hretired, hticked, hV, hI, hstack, hfb, ?stored, ?other⟩
    case stored =>
      intro r hr
      have hj : r.val < (s.firstRegs x).length := by rw [hlength]; exact Nat.lt_succ_of_le hr
      rw [hread r.val hj, State.getElem_firstRegs]
    case other =>
      intro a ha
      exact hother a (by rw [hlength]; omega)
  · intro houtside
    exact ⟨_, exec_ldMemVx_outside x houtside, State.takeFault_fault _ _, fun _ => rfl⟩

/-- Settles O30: the execute step replaces the registers by the loaded ones and touches nothing else, or faults in the
check of the span. -/
theorem registerLoadReadsFirstRegistersOrFaults : Obligations.RegisterLoadReadsFirstRegistersOrFaults := by
  unfold Obligations.RegisterLoadReadsFirstRegistersOrFaults
  intro x s hlegal
  constructor
  · intro hinside
    obtain ⟨t, hnext, honly, hV⟩ := onlyRegisters_of_exec_registers (exec_ldVxMem_ok x hinside) hlegal
    exact ⟨t, hnext, honly, fun r => by rw [hV]; exact s.getElem_loadRegs x s.I.toNat r⟩
  · intro houtside
    exact ⟨_, exec_ldVxMem_outside x houtside, State.takeFault_fault _ _, fun _ => rfl⟩

/-- Settles O25: the execute step writes `I` alone, and the 16-bit register takes every operand unchanged. -/
theorem ldISetsIndex : Obligations.LdISetsIndex := by
  unfold Obligations.LdISetsIndex
  intro nnn s _ hlegal
  obtain ⟨hnext, hretired, hticked⟩ := retires_of_exec_advance (exec_ldI nnn s) rfl rfl rfl hlegal
  exact ⟨_, hnext, hretired, hticked, fun _ => rfl, ⟨rfl, fun _ => rfl⟩, fun _ _ => rfl, fun _ => rfl, rfl⟩

end Sys2Proof.Proofs.IndexMemory
end

section
/-! Proof of the statement on CLS (44_display.md, R180). -/

namespace Sys2Proof.Proofs.Display

open Sys2Proof.Machine Sys2Proof.Spec Sys2Proof.Proofs.Cycle

/-- Settles O31: the execute step replaces the framebuffer by the blank one, whatever it held, and touches nothing
else; the cycle retires with redraw set. -/
theorem clsClearsEveryPixel : Obligations.ClsClearsEveryPixel := by
  unfold Obligations.ClsClearsEveryPixel
  intro s hlegal
  have htarget : Ctl.advance2.target s.pc = s.pc.toNat + 2 := rfl
  have hnext : exec .cls s = .next (s.retired { state := { s with fb := Framebuffer.blank }, redraw := true }) := by
    rw [exec_cls, (State.retire_in_range htarget hlegal).1]
  exact ⟨_, hnext, retired_of_legal htarget hlegal rfl, ⟨tick_toNat s.DT, tick_toNat s.ST⟩, fun _ => rfl, rfl,
    ⟨rfl, fun _ => rfl⟩, fun _ => rfl, Framebuffer.pixel_blank⟩

end Sys2Proof.Proofs.Display
end

section
/-! Proof of the statement on LD Vx, DT (45_timers_keys_random.md, R190). -/

namespace Sys2Proof.Proofs.TimersKeysRandom

open Sys2Proof.Machine Sys2Proof.Spec Sys2Proof.Proofs.Alu

/-- Settles O34: the execute step is one register write, of the delay timer of the state before the cycle; the tick
comes afterwards, at the end of the cycle, and reaches the timers alone. -/
theorem ldVxDTReadsTimerBeforeTheTick : Obligations.LdVxDTReadsTimerBeforeTheTick := by
  unfold Obligations.LdVxDTReadsTimerBeforeTheTick
  intro x s hlegal
  exact onlyRegisters_of_exec_result (exec_ldVxDT x s) hlegal

end Sys2Proof.Proofs.TimersKeysRandom
end

section
/-! Proofs of the statements on the stack faults (60_exceptions.md, R212 and R213). -/

namespace Sys2Proof.Proofs.Exceptions

open Sys2Proof.Machine Sys2Proof.Spec

/-! ## The latch after a cycle -/

/-- A fault taken leaves everything the spec gives the machine as it was, but the latch and the answer (R217). -/
theorem takeFault_faulted (s : State) (k : Fault) : Faulted s (s.takeFault k) k where
  fault := rfl
  result := rfl
  pc := rfl
  regs := fun _ => rfl
  index := rfl
  stack := ⟨rfl, fun _ => rfl⟩
  timers := ⟨rfl, rfl⟩
  fb := fun _ _ => rfl
  mem := fun _ => rfl

/-- The end of a cycle raises AddressingFault or nothing: its only check is the one of the new `pc` (R104). -/
theorem retire_fault {s : State} {e : Effect} (hlatch : e.state.fault = s.fault) :
    (s.retire e).fault = s.fault ∨ (s.retire e).fault = some .addressing := by
  cases hpc : pcLegal (e.ctl.target s.pc) with
  | true => exact .inl (by rw [State.retire_legal hpc, State.retired_fault, hlatch])
  | false => exact .inr (by rw [State.retire_illegal hpc, State.takeFault_fault])

theorem fault_of_exec_retire {i : Instr} {s t : State} {e : Effect} (hnext : exec i s = .next t)
    (hexec : exec i s = .next (s.retire e)) (hlatch : e.state.fault = s.fault) :
    t.fault = s.fault ∨ t.fault = some .addressing := by
  cases hnext.symm.trans hexec
  exact retire_fault hlatch

theorem fault_of_exec_takeFault {i : Instr} {s t : State} {k : Fault} (hnext : exec i s = .next t)
    (hexec : exec i s = .next (s.takeFault k)) : t.fault = some k := by
  cases hnext.symm.trans hexec
  exact State.takeFault_fault s k

/-! ## The causes of a stack fault -/

theorem stackFault_iff {s : State} {i : Instr} :
    stackFault s i ↔ (∃ nnn, i = .call nnn ∧ s.sp.val = 16) ∨ (i = .ret ∧ s.sp.val = 0) := by
  cases i <;> simp [stackFault]

/-- An instruction that meets no condition of R212 or R213 leaves the latch alone or raises AddressingFault: no other
execute step checks the stack. -/
theorem fault_of_not_stackFault {i : Instr} {s t : State} (hstack : ¬ stackFault s i) (hnext : exec i s = .next t) :
    t.fault = s.fault ∨ t.fault = some .addressing := by
  cases i with
  | call nnn =>
    have hfree : s.sp.val < 16 := by have : s.sp.val ≠ 16 := hstack; omega
    exact fault_of_exec_retire hnext (exec_call_ok nnn hfree) rfl
  | ret =>
    have hused : s.sp.val ≠ 0 := hstack
    exact fault_of_exec_retire hnext (exec_ret_ok (k := ⟨s.sp.val - 1, by omega⟩) (by simp only; omega)) rfl
  | ldB x =>
    by_cases hinside : s.I.toNat + 2 ≤ 0xFFF
    · exact fault_of_exec_retire hnext (exec_ldB_ok x hinside) rfl
    · exact .inr (fault_of_exec_takeFault hnext (exec_ldB_outside x (by omega)))
  | ldMemVx x =>
    by_cases hinside : s.I.toNat + x.val ≤ 0xFFF
    · exact fault_of_exec_retire hnext (exec_ldMemVx_ok x hinside) rfl
    · exact .inr (fault_of_exec_takeFault hnext (exec_ldMemVx_outside x (by omega)))
  | ldVxMem x =>
    by_cases hinside : s.I.toNat + x.val ≤ 0xFFF
    · exact fault_of_exec_retire hnext (exec_ldVxMem_ok x hinside) rfl
    · exact .inr (fault_of_exec_takeFault hnext (exec_ldVxMem_outside x (by omega)))
  | drw x y n =>
    by_cases hinside : n = 0 ∨ s.I.toNat + n - 1 ≤ 0xFFF
    · exact fault_of_exec_retire hnext (exec_drw_ok x y hinside) rfl
    · exact .inr (fault_of_exec_takeFault hnext (exec_drw_outside x y hinside))
  | ldVxK x =>
    cases hkey : firstKey s.input.keys with
    | some k => exact fault_of_exec_retire hnext (exec_ldVxK_held x hkey) rfl
    | none => exact fault_of_exec_retire hnext (exec_ldVxK_wait x hkey) rfl
  -- Every other execute step raises nothing: its cycle is by definition the end of a cycle over one effect.
  | _ => exact fault_of_exec_retire hnext rfl rfl

/-- A step raises a fault other than AddressingFault only by an instruction that meets a condition of R212 or R213:
the host's requests, the fetch and the unrecognized word raise none. -/
theorem stackFault_of_step {s t : State} {k : Fault} (hsafe : s.fault = none) (hstep : step s = .next t)
    (hfault : t.fault = some k) (hk : k ≠ .addressing) : ∃ i, s.Runs i ∧ exec i s = .next t ∧ stackFault s i := by
  have hraised : ¬ (t.fault = s.fault ∨ t.fault = some .addressing) := by
    rw [hfault, hsafe, Option.some_inj]
    exact not_or_intro nofun hk
  rcases step_cases hstep with
    ⟨_, _, rfl⟩ | ⟨_, _, _, rfl⟩ | ⟨_, _, _, rfl⟩ | ⟨i, hruns, hnext⟩ | ⟨_, _, _, _, _, _, rfl⟩
  · exact (hraised (.inl hsafe.symm)).elim
  · exact (hraised (.inl rfl)).elim
  · exact (hraised (.inr rfl)).elim
  · exact ⟨i, hruns, hnext, by_contra fun hstack => hraised (fault_of_not_stackFault hstack hnext)⟩
  · exact (hraised (retire_fault rfl)).elim

/-! ## The statements -/

/-- Settles O42: the push faults before it stores, and of the two instructions that can raise a stack fault RET raises
the other one. -/
theorem stackOverflowOnlyByCallOnAFullStack : Obligations.StackOverflowOnlyByCallOnAFullStack := by
  unfold Obligations.StackOverflowOnlyByCallOnAFullStack
  constructor
  · intro nnn s hfull
    exact ⟨_, exec_call_full nnn hfull, takeFault_faulted s _⟩
  · intro s t hsafe hstep hfault
    obtain ⟨i, hruns, hnext, hstack⟩ := stackFault_of_step hsafe hstep hfault nofun
    obtain ⟨nnn, rfl, hfull⟩ | ⟨rfl, hempty⟩ := stackFault_iff.mp hstack
    · exact ⟨nnn, hruns, hfull⟩
    · cases hfault.symm.trans (fault_of_exec_takeFault hnext (exec_ret_empty hempty))

/-- Settles O43: the pop of an empty stack faults, and of the two instructions that can raise a stack fault CALL raises
the other one. -/
theorem stackUnderflowOnlyByRetOnAnEmptyStack : Obligations.StackUnderflowOnlyByRetOnAnEmptyStack := by
  unfold Obligations.StackUnderflowOnlyByRetOnAnEmptyStack
  constructor
  · intro s hempty
    exact ⟨_, exec_ret_empty hempty, State.takeFault_fault s _⟩
  · intro s t hsafe hstep hfault
    obtain ⟨i, hruns, hnext, hstack⟩ := stackFault_of_step hsafe hstep hfault nofun
    obtain ⟨nnn, rfl, hfull⟩ | ⟨rfl, hempty⟩ := stackFault_iff.mp hstack
    · cases hfault.symm.trans (fault_of_exec_takeFault hnext (exec_call_full nnn hfull))
    · exact ⟨hruns, hempty⟩

end Sys2Proof.Proofs.Exceptions
end

section
/-! What the cycle of every instruction comes to, said once in the terms of the statements: a stack fault, an
AddressingFault, or an execute step that changes only what its instruction may change. -/

namespace Sys2Proof.Proofs.Outcome

open Sys2Proof.Machine Sys2Proof.Spec

@[simp] theorem skipIf_state (c : Bool) (s : State) : (skipIf c s).state = s := rfl
@[simp] theorem skipIf_redraw (c : Bool) (s : State) : (skipIf c s).redraw = false := rfl

/-! ## What an execute step may change -/

/-- What the execute step of instruction `i` leaves when it raises nothing: the candidate `pc` of R103's table, and for
each element of the state the instructions that alone may change it. The defaults are the proofs for the elements that
an instruction does not touch, so that each instruction below names only those it does. -/
structure Executes (i : Instr) (s : State) (e : Effect) : Prop where
  keeps : KeepsCycle s e := by constructor <;> simp
  target : e.ctl.target s.pc = pcCandidate s i := by rfl
  regs : ∀ r : Reg, ¬ mayWrite i r → e.state.V[r] = s.V[r] := by intros; simp
  index : (∀ nnn, i ≠ .ldI nnn) → (∀ x, i ≠ .addI x) → (∀ x, i ≠ .ldF x) → e.state.I = s.I := by intros; simp
  stack : (∀ nnn, i ≠ .call nnn) → e.state.stack = s.stack := by intros; simp
  sp : (∀ nnn, i ≠ .call nnn) → i ≠ .ret → e.state.sp = s.sp := by intros; simp
  live : ∀ k : Fin 16, k.val < s.sp.val → e.state.stack[k] = s.stack[k] := by intros; simp
  pushed : ∀ k : Fin 16, e.state.stack[k] = s.stack[k] ∨ e.state.stack[k] = s.pc + 2 := by simp
  entered : ∀ k : Fin 16, k.val < e.state.sp.val → k.val < s.sp.val ∨ e.state.stack[k] = s.pc + 2 := by
    intro _ hk; exact .inl (by simpa using hk)
  delay : (∀ x, i ≠ .ldDT x) → e.state.DT = s.DT := by intros; simp
  sound : (∀ x, i ≠ .ldST x) → e.state.ST = s.ST := by intros; simp
  fb : i ≠ .cls → (∀ x y n, i ≠ .drw x y n) → e.state.fb = s.fb := by intros; simp
  redraw : e.redraw = true ↔ i = .cls ∨ ∃ x y n, i = .drw x y n := by simp
  unstored : stores s i = none → e.state.mem = s.mem := by intros; simp
  stored : ∀ base count, stores s i = some (base, count) → base + count ≤ Config.memSize ∧
    ∃ bytes : List Byte, bytes.length = count ∧ e.state.mem = s.mem.writeSpan base bytes := by exact nofun

/-! ## The elements that an execute step touches -/

theorem setV_other (V : Vector Byte 16) {x r : Reg} (v : Byte) (h : r ≠ x) : (V.set x v)[r] = V[r] := by
  rw [getElem_setV, if_neg h]

theorem setV_setVF_other (V : Vector Byte 16) {x r : Reg} (v f : Byte) (h : ¬ (r = x ∨ r = VF)) :
    ((V.set x v).set VF f)[r] = V[r] := by
  rw [setV_other _ _ (fun hr => h (.inr hr)), setV_other _ _ (fun hr => h (.inl hr))]

theorem skipIf_target {s : State} {c : Bool} {p : Prop} [Decidable p] (h : c = true ↔ p) :
    (skipIf c s).ctl.target s.pc = if p then s.pc.toNat + 4 else s.pc.toNat + 2 := by
  by_cases hp : p
  · rw [skipIf_true (h.mpr hp), if_pos hp]; rfl
  · rw [skipIf_false (Bool.eq_false_iff.mpr (mt h.mp hp)), if_neg hp]; rfl

theorem skipIf_target_not {s : State} {c : Bool} {p : Prop} [Decidable p] (h : c = true ↔ ¬ p) :
    (skipIf c s).ctl.target s.pc = if p then s.pc.toNat + 2 else s.pc.toNat + 4 := by
  rw [skipIf_target h, ite_not]

theorem held_of_firstKey {keys : Vector Bool 16} {k : Fin 16} (h : firstKey keys = some k) :
    ∃ j : Fin 16, keys[j] = true :=
  ⟨k, List.find?_some (p := fun k : Fin 16 => keys[k]) h⟩

theorem not_held_of_firstKey {keys : Vector Bool 16} (h : firstKey keys = none) : ¬ ∃ j : Fin 16, keys[j] = true :=
  fun ⟨j, hj⟩ => List.find?_eq_none.mp h j (List.mem_finRange j) hj

/-- A push leaves every entry but the one it writes. -/
theorem set_stack_cases (stack : Vector Word 16) (ret : Word) {sp : Nat} (h : sp < 16) (k : Fin 16) :
    (k.val ≠ sp ∧ (stack.set sp ret)[k] = stack[k]) ∨ (stack.set sp ret)[k] = ret := by
  by_cases hk : k.val = sp
  · subst hk
    exact .inr (Vector.getElem_set_self h)
  · exact .inl ⟨hk, Vector.getElem_set_ne h k.isLt (Ne.symm hk)⟩

theorem pcCandidate_ret {s : State} {k : Fin 16} (h : s.sp.val = k.val + 1) :
    pcCandidate s .ret = (s.stack[k]).toNat := by
  simp [pcCandidate, h, List.getD_eq_getElem?_getD]

/-! ## The outcome of an instruction -/

/-- An instruction that is neither a stack fault nor out of memory ends its cycle over an execute step that changes only
what it may change. -/
theorem exec_executes {i : Instr} {s : State} (hstack : ¬ stackFault s i) (hdata : ¬ dataOutside s i) :
    ∃ e, exec i s = .next (s.retire e) ∧ Executes i s e := by
  cases i with
  | cls => exact ⟨_, exec_cls s, { fb := fun h => absurd rfl h }⟩
  | ret =>
    have hused : s.sp.val ≠ 0 := hstack
    let k : Fin 16 := ⟨s.sp.val - 1, by omega⟩
    have hk : s.sp.val = k.val + 1 := by simp only [k]; omega
    exact ⟨_, exec_ret_ok hk, 
      { target := (pcCandidate_ret hk).symm
        sp := fun _ h => absurd rfl h
        entered := fun j hj => .inl (hk ▸ Nat.lt_succ_of_lt hj) }⟩
  | jp nnn => exact ⟨_, exec_jp nnn s, {}⟩
  | call nnn =>
    have hfree : s.sp.val < 16 := by have : s.sp.val ≠ 16 := hstack; omega
    exact ⟨_, exec_call_ok nnn hfree,
      { stack := fun h => absurd rfl (h nnn)
        sp := fun h => absurd rfl (h nnn)
        live := fun k hk => Vector.getElem_set_ne hfree k.isLt (Nat.ne_of_gt hk)
        pushed := fun k => (set_stack_cases s.stack (s.pc + 2) hfree k).imp_left And.right
        entered := fun k hk => (set_stack_cases s.stack (s.pc + 2) hfree k).imp_left fun h =>
          Nat.lt_of_le_of_ne (Nat.le_of_lt_succ hk) h.1 }⟩
  | seByte x kk => exact ⟨_, exec_seByte x kk s, { target := skipIf_target beq_iff_eq }⟩
  | sneByte x kk => exact ⟨_, exec_sneByte x kk s, { target := skipIf_target_not bne_iff_ne }⟩
  | seReg x y => exact ⟨_, exec_seReg x y s, { target := skipIf_target beq_iff_eq }⟩
  | sneReg x y => exact ⟨_, exec_sneReg x y s, { target := skipIf_target_not bne_iff_ne }⟩
  | ldByte x kk => exact ⟨_, exec_ldByte x kk s, { regs := fun _ => setV_other _ _ }⟩
  | addByte x kk => exact ⟨_, exec_addByte x kk s, { regs := fun _ => setV_other _ _ }⟩
  | ldReg x y => exact ⟨_, exec_ldReg x y s, { regs := fun _ => setV_other _ _ }⟩
  | orReg x y => exact ⟨_, exec_orReg x y s, { regs := fun _ => setV_other _ _ }⟩
  | andReg x y => exact ⟨_, exec_andReg x y s, { regs := fun _ => setV_other _ _ }⟩
  | xorReg x y => exact ⟨_, exec_xorReg x y s, { regs := fun _ => setV_other _ _ }⟩
  | addReg x y => exact ⟨_, exec_addReg x y s, { regs := fun _ => setV_setVF_other _ _ _ }⟩
  | subReg x y => exact ⟨_, exec_subReg x y s, { regs := fun _ => setV_setVF_other _ _ _ }⟩
  | shr x y => exact ⟨_, exec_shr x y s, { regs := fun _ => setV_setVF_other _ _ _ }⟩
  | subnReg x y => exact ⟨_, exec_subnReg x y s, { regs := fun _ => setV_setVF_other _ _ _ }⟩
  | shl x y => exact ⟨_, exec_shl x y s, { regs := fun _ => setV_setVF_other _ _ _ }⟩
  | skp x => exact ⟨_, exec_skp x s, { target := skipIf_target Iff.rfl }⟩
  | sknp x => exact ⟨_, exec_sknp x s, { target := skipIf_target_not (by simp) }⟩
  | ldI nnn => exact ⟨_, exec_ldI nnn s, { index := fun h => absurd rfl (h nnn) }⟩
  | jpV0 nnn => exact ⟨_, exec_jpV0 nnn s, {}⟩
  | rnd x kk => exact ⟨_, exec_rnd x kk s, { regs := fun _ => setV_other _ _ }⟩
  | drw x y n =>
    have hinside : n = 0 ∨ s.I.toNat + n - 1 ≤ 0xFFF := by
      have : ¬ (1 ≤ n ∧ s.I.toNat + n - 1 > 0xFFF) := hdata
      omega
    exact ⟨_, exec_drw_ok x y hinside,
      { regs := fun _ => setV_other _ _, fb := fun _ h => absurd rfl (h x y n) }⟩
  | ldVxDT x => exact ⟨_, exec_ldVxDT x s, { regs := fun _ => setV_other _ _ }⟩
  | ldVxK x =>
    cases hkey : firstKey s.input.keys with
    | some k =>
      exact ⟨_, exec_ldVxK_held x hkey,
        { target := (if_pos (held_of_firstKey hkey)).symm, regs := fun _ => setV_other _ _ }⟩
    | none => exact ⟨_, exec_ldVxK_wait x hkey, { target := (if_neg (not_held_of_firstKey hkey)).symm }⟩
  | ldDT x => exact ⟨_, exec_ldDT x s, { delay := fun h => absurd rfl (h x) }⟩
  | ldST x => exact ⟨_, exec_ldST x s, { sound := fun h => absurd rfl (h x) }⟩
  | addI x => exact ⟨_, exec_addI x s, { index := fun _ h => absurd rfl (h x) }⟩
  | ldF x => exact ⟨_, exec_ldF x s, { index := fun _ _ h => absurd rfl (h x) }⟩
  | ldB x =>
    have hinside : s.I.toNat + 2 ≤ 0xFFF := Nat.not_lt.mp hdata
    refine ⟨_, exec_ldB_ok x hinside, { unstored := nofun, stored := ?_ }⟩
    rintro _ _ ⟨⟩
    exact ⟨Nat.succ_le_succ hinside, _, decimalDigits_length _, rfl⟩
  | ldMemVx x =>
    have hinside : s.I.toNat + x.val ≤ 0xFFF := Nat.not_lt.mp hdata
    refine ⟨_, exec_ldMemVx_ok x hinside, { unstored := nofun, stored := ?_ }⟩
    rintro _ _ ⟨⟩
    exact ⟨Nat.succ_le_succ hinside, _, s.firstRegs_length x, rfl⟩
  | ldVxMem x =>
    have hinside : s.I.toNat + x.val ≤ 0xFFF := Nat.not_lt.mp hdata
    exact ⟨_, exec_ldVxMem_ok x hinside,
      { regs := fun r hr => (s.getElem_loadRegs x s.I.toNat r).trans (if_neg hr) }⟩

/-- An instruction whose data are out of memory raises AddressingFault. -/
theorem exec_of_dataOutside {i : Instr} {s : State} (hdata : dataOutside s i) :
    exec i s = .next (s.takeFault .addressing) := by
  cases i with
  | drw x y n =>
    obtain ⟨hrows, houtside⟩ : 1 ≤ n ∧ s.I.toNat + n - 1 > 0xFFF := hdata
    exact exec_drw_outside x y (by omega)
  | ldB x => exact exec_ldB_outside x hdata
  | ldMemVx x => exact exec_ldMemVx_outside x hdata
  | ldVxMem x => exact exec_ldVxMem_outside x hdata
  | _ => exact hdata.elim

/-- A stack fault is raised before anything else, and it is no AddressingFault. -/
theorem exec_of_stackFault {i : Instr} {s : State} (hstack : stackFault s i) :
    ∃ k, k ≠ .addressing ∧ exec i s = .next (s.takeFault k) := by
  cases i with
  | call nnn => exact ⟨.stackOverflow, nofun, exec_call_full nnn hstack⟩
  | ret => exact ⟨.stackUnderflow, nofun, exec_ret_empty hstack⟩
  | _ => exact hstack.elim

/-- Everything an instruction's cycle can do, and exactly when: a stack fault, an AddressingFault for a data address or
the candidate `pc` (R211, R216), or the end of an execute step that changes only what it may change. -/
theorem exec_outcome {i : Instr} {s t : State} (h : exec i s = .next t) :
    (stackFault s i ∧ ∃ k, k ≠ .addressing ∧ t = s.takeFault k) ∨
    (¬ stackFault s i ∧ (dataOutside s i ∨ ¬ LegalPc (pcCandidate s i)) ∧ t = s.takeFault .addressing) ∨
    (¬ stackFault s i ∧ ¬ dataOutside s i ∧ LegalPc (pcCandidate s i) ∧ ∃ e, Executes i s e ∧ t = s.retired e) := by
  by_cases hstack : stackFault s i
  · obtain ⟨k, hk, hexec⟩ := exec_of_stackFault hstack
    cases h.symm.trans hexec
    exact .inl ⟨hstack, k, hk, rfl⟩
  by_cases hdata : dataOutside s i
  · cases h.symm.trans (exec_of_dataOutside hdata)
    exact .inr (.inl ⟨hstack, .inl hdata, rfl⟩)
  obtain ⟨e, hexec, he⟩ := exec_executes hstack hdata
  cases h.symm.trans hexec
  by_cases hpc : LegalPc (pcCandidate s i)
  · exact .inr (.inr ⟨hstack, hdata, hpc, e, he, (State.retire_in_range he.target hpc).1⟩)
  · exact .inr (.inl ⟨hstack, .inr hpc, State.retire_out_of_range he.target hpc⟩)

/-- The same for what the cycle leaves: a fault taken, or an execute step that changes only what it may change. -/
theorem exec_takes_or_executes {i : Instr} {s t : State} (h : exec i s = .next t) :
    (∃ k, t = s.takeFault k) ∨ ∃ e, Executes i s e ∧ t = s.retired e := by
  obtain ⟨-, k, -, ht⟩ | ⟨-, -, ht⟩ | ⟨-, -, -, he⟩ := exec_outcome h
  · exact .inl ⟨k, ht⟩
  · exact .inl ⟨_, ht⟩
  · exact .inr he

/-- An instruction that ends with a clear latch raised nothing. -/
theorem exec_outcome_of_noFault {i : Instr} {s t : State} (h : exec i s = .next t) (hfault : t.fault = none) :
    ¬ stackFault s i ∧ ¬ dataOutside s i ∧ LegalPc (pcCandidate s i) ∧ ∃ e, Executes i s e ∧ t = s.retired e := by
  obtain ⟨-, k, -, rfl⟩ | ⟨-, -, rfl⟩ | hok := exec_outcome h
  · cases hfault
  · cases hfault
  · exact hok

end Sys2Proof.Proofs.Outcome
end


section
/-! Proofs of the statements on every instruction (10_state.md, 40_cycle.md R103, 60_exceptions.md R211): each is read
off the outcome of an instruction. -/

namespace Sys2Proof.Proofs.Instructions

open Sys2Proof.Machine Sys2Proof.Spec Sys2Proof.Proofs.Outcome

/-- Settles O40: a cycle that raises nothing passed the range check of the candidate `pc` and wrote it. -/
theorem pcFollowsTheControlFlowTable : Obligations.PcFollowsTheControlFlowTable := by
  unfold Obligations.PcFollowsTheControlFlowTable
  intro i s t _ hnext hfault
  obtain ⟨-, -, hpc, e, he, rfl⟩ := exec_outcome_of_noFault hnext hfault
  exact ⟨(State.retire_in_range he.target hpc).2, hpc⟩

/-- Settles O41: the three outcomes of an instruction exclude each other, and the middle one is AddressingFault. -/
theorem addressingFaultExactlyWhenOutOfRange : Obligations.AddressingFaultExactlyWhenOutOfRange := by
  unfold Obligations.AddressingFaultExactlyWhenOutOfRange
  intro i s t hsafe hnext
  obtain ⟨hstack, k, hk, rfl⟩ | ⟨hstack, houtside, rfl⟩ | ⟨-, hdata, hpc, e, he, rfl⟩ := exec_outcome hnext
  · exact iff_of_false (fun h => hk (Option.some_inj.mp h)) (fun h => h.1 hstack)
  · exact iff_of_true rfl ⟨hstack, houtside⟩
  · have hclear : (s.retired e).fault = none := he.keeps.fault.trans hsafe
    exact iff_of_false (by rw [hclear]; exact nofun) (fun h => h.2.elim hdata (fun hpc' => hpc' hpc))

/-- Settles O45: a fault leaves the registers, and an execute step only writes those its instruction may write. -/
theorem registersChangeOnlyAsDestinations : Obligations.RegistersChangeOnlyAsDestinations := by
  unfold Obligations.RegistersChangeOnlyAsDestinations
  intro i s t r hnext hr
  obtain ⟨k, rfl⟩ | ⟨e, he, rfl⟩ := exec_takes_or_executes hnext
  · rfl
  · exact he.regs r hr

/-- Settles O46: a fault leaves `I`, and so does the execute step of any other instruction. -/
theorem indexChangesOnlyByIndexInstructions : Obligations.IndexChangesOnlyByIndexInstructions := by
  unfold Obligations.IndexChangesOnlyByIndexInstructions
  intro i s t hnext hldI haddI hldF
  obtain ⟨k, rfl⟩ | ⟨e, he, rfl⟩ := exec_takes_or_executes hnext
  · rfl
  · exact he.index hldI haddI hldF

/-- Settles O47: a fault leaves the stack; CALL's execute step writes above the live entries and RET's only moves
`sp`. -/
theorem stackChangesOnlyByCallAndRet : Obligations.StackChangesOnlyByCallAndRet := by
  unfold Obligations.StackChangesOnlyByCallAndRet
  intro i s t hnext
  obtain ⟨k, rfl⟩ | ⟨e, he, rfl⟩ := exec_takes_or_executes hnext
  · exact ⟨fun _ _ => rfl, fun _ _ => rfl, fun _ _ => rfl⟩
  · exact ⟨fun hcall k => congrArg (·[k]) (he.stack hcall), he.sp, he.live⟩

/-- Settles O48: a fault leaves the framebuffer, and so does the execute step of any other instruction. -/
theorem framebufferChangesOnlyByClsAndDrw : Obligations.FramebufferChangesOnlyByClsAndDrw := by
  unfold Obligations.FramebufferChangesOnlyByClsAndDrw
  intro i s t hnext hcls hdrw px py
  obtain ⟨k, rfl⟩ | ⟨e, he, rfl⟩ := exec_takes_or_executes hnext
  · rfl
  · rw [State.retired_fb, he.fb hcls hdrw]

/-- Settles O49: a fault leaves memory, and an execute step that stores writes one span of the stated length. -/
theorem memoryChangesOnlyInTheStoredBytes : Obligations.MemoryChangesOnlyInTheStoredBytes := by
  unfold Obligations.MemoryChangesOnlyInTheStoredBytes
  intro i s t hnext
  obtain ⟨k, rfl⟩ | ⟨e, he, rfl⟩ := exec_takes_or_executes hnext
  · exact ⟨fun _ _ => rfl, fun _ _ _ _ _ => rfl⟩
  constructor
  · intro hnone a
    rw [State.retired_mem, he.unstored hnone]
  · intro base count hsome a ha
    obtain ⟨-, bytes, rfl, hmem⟩ := he.stored base count hsome
    rw [State.retired_mem, hmem, Memory.read_writeSpan_outside ha]

end Sys2Proof.Proofs.Instructions
end

section
/-! What a step comes to when the host asks for a cycle, and the statements read off it: timers (R105), outputs (R106),
precise faults (R217), the halted core (R218). -/

namespace Sys2Proof.Proofs.Steps

open Sys2Proof.Machine Sys2Proof.Spec Sys2Proof.Proofs.Outcome Sys2Proof.Proofs.Exceptions

/-! ## The outcome of a cycle -/

/-- An unrecognized word runs no instruction. -/
theorem not_runs_of_decode_error {s : State} {op : Word} {r : Reject} (hfetch : s.fetch = .ok op)
    (hdecode : decode op = .error r) (i : Instr) : ¬ s.Runs i := by
  rintro ⟨-, -, op', hfetch', hdecode'⟩
  cases hfetch.symm.trans hfetch'
  cases hdecode.symm.trans hdecode'

theorem runs_iff_eq {s : State} {i : Instr} (hruns : s.Runs i) (j : Instr) : s.Runs j ↔ i = j :=
  ⟨runs_unique hruns, fun h => h ▸ hruns⟩

/-- Everything a cycle that has a next state can do: take a fault, or retire the execute step of the instruction it ran,
or of the unrecognized no-op. -/
theorem cycle_outcome {s t : State} (hcycle : s.CycleNext) (hstep : step s = .next t) :
    s.fault = none ∧ ((∃ k, t = s.takeFault k) ∨
      ∃ e, LegalPc (e.ctl.target s.pc) ∧ t = s.retired e ∧
        ((∃ i, s.Runs i ∧ Executes i s e) ∨ ((∀ i, ¬ s.Runs i) ∧ e = { state := s }))) := by
  rcases step_cases hstep with
    ⟨rest, hreset, -⟩ | ⟨bytes, rest, hload, -⟩ | ⟨-, hsafe, -, rfl⟩ | ⟨i, hruns, hnext⟩ |
    ⟨op, r, -, hsafe, hfetch, hdecode, rfl⟩
  · rcases hcycle with h | ⟨p, rest', h⟩ <;> cases h.symm.trans hreset
  · rcases hcycle with h | ⟨p, rest', h⟩ <;> cases h.symm.trans hload
  · exact ⟨hsafe, .inl ⟨_, rfl⟩⟩
  · refine ⟨hruns.1, ?_⟩
    obtain ⟨-, k, -, rfl⟩ | ⟨-, -, rfl⟩ | ⟨-, -, hpc, e, he, rfl⟩ := exec_outcome hnext
    · exact .inl ⟨k, rfl⟩
    · exact .inl ⟨_, rfl⟩
    · exact .inr ⟨e, he.target ▸ hpc, rfl, .inl ⟨i, hruns, he⟩⟩
  · refine ⟨hsafe, ?_⟩
    let e : Effect := { state := s }
    by_cases hpc : LegalPc (e.ctl.target s.pc)
    · exact .inr ⟨e, hpc, (State.retire_in_range rfl hpc).1, .inr ⟨not_runs_of_decode_error hfetch hdecode, rfl⟩⟩
    · exact .inl ⟨_, State.retire_out_of_range rfl hpc⟩

/-- A cycle that ends with the latch clear retired. -/
theorem cycle_retires {s t : State} (hcycle : s.CycleNext) (hstep : step s = .next t) (hfault : t.fault = none) :
    ∃ e, t = s.retired e ∧ ((∃ i, s.Runs i ∧ Executes i s e) ∨ ((∀ i, ¬ s.Runs i) ∧ e = { state := s })) := by
  obtain ⟨-, ⟨k, rfl⟩ | ⟨e, -, ht, he⟩⟩ := cycle_outcome hcycle hstep
  · cases hfault
  · exact ⟨e, ht, he⟩

/-- What a cycle's execute step keeps, when the instruction it runs keeps it: the no-op keeps everything. -/
theorem kept_of_outcome {s : State} {e : Effect} {α : Type} (element : State → α)
    (he : (∃ i, s.Runs i ∧ Executes i s e) ∨ ((∀ i, ¬ s.Runs i) ∧ e = { state := s }))
    (hkept : ∀ i, s.Runs i → Executes i s e → element e.state = element s) : element e.state = element s := by
  obtain ⟨i, hruns, hexecutes⟩ | ⟨-, rfl⟩ := he
  · exact hkept i hruns hexecutes
  · rfl

/-- A cycle leaves the latch clear or takes a fault. -/
theorem cycle_fault {s t : State} (hcycle : s.CycleNext) (hstep : step s = .next t) :
    t.fault = none ∨ ∃ k, t = s.takeFault k := by
  obtain ⟨hsafe, htakes | ⟨e, -, rfl, he⟩⟩ := cycle_outcome hcycle hstep
  · exact .inr htakes
  · exact .inl ((kept_of_outcome State.fault he fun _ _ hexecutes => hexecutes.keeps.fault).trans hsafe)

/-! ## The statements -/

/-- Settles O8: with the latch clear, a cycle next and the word decoded, the step is the instruction by definition. -/
theorem stepRunsTheDecodedInstruction : Obligations.StepRunsTheDecodedInstruction := by
  unfold Obligations.StepRunsTheDecodedInstruction
  intro s i op hsafe hcycle hfetch hdecode
  exact step_of_runs ⟨hsafe, hcycle, op, hfetch, hdecode⟩

/-- Settles O10: a halted cycle is answered before the fetch; of the steps that have a next state only the host's two
start from a set latch, and `Load` keeps it. -/
theorem haltedCoreOnlyLoadsOrResets : Obligations.HaltedCoreOnlyLoadsOrResets := by
  unfold Obligations.HaltedCoreOnlyLoadsOrResets
  intro s k hlatch
  refine ⟨?cycle, ?load, ?reset⟩
  case cycle =>
    intro hcycle
    rw [step_of_cycleNext hcycle, runCycle_halted hlatch]
  case load =>
    intro bytes rest hload
    exact ⟨_, step_of_load hload, hlatch, rfl, fun _ => rfl, rfl, ⟨rfl, fun _ => rfl⟩, ⟨rfl, rfl⟩, fun _ _ => rfl, rfl⟩
  case reset =>
    intro t hstep hclear
    rcases requests_cases s with hcycle | ⟨rest, hreset⟩ | ⟨bytes, rest, hload⟩
    · cases hlatch.symm.trans (cycle_outcome hcycle hstep).1
    · exact ⟨rest, hreset⟩
    · cases hstep.symm.trans (step_of_load hload)
      cases hlatch.symm.trans hclear

/-- Settles O44: of the steps from a clear latch only a cycle that takes a fault ends with it set, and taking a fault
keeps every element. -/
theorem faultsArePrecise : Obligations.FaultsArePrecise := by
  unfold Obligations.FaultsArePrecise
  intro s t k hsafe hstep hfault
  rcases requests_cases s with hcycle | ⟨rest, hreset⟩ | ⟨bytes, rest, hload⟩
  · obtain hclear | ⟨k', rfl⟩ := cycle_fault hcycle hstep
    · cases hclear.symm.trans hfault
    · cases hfault
      exact takeFault_faulted s k
  · cases hstep.symm.trans (step_of_reset hreset)
    cases hfault
  · cases hstep.symm.trans (step_of_load hload)
    cases hsafe.symm.trans hfault

/-- Settles O50: a cycle that retires ticks what its execute step left in the timers, which is what they held unless it
is LD DT or LD ST; a cycle that takes a fault keeps them. -/
theorem timersTickOncePerCycle : Obligations.TimersTickOncePerCycle := by
  unfold Obligations.TimersTickOncePerCycle
  intro s t _ hcycle hstep
  refine ⟨?delay, ?sound, ?faulted⟩
  case delay =>
    intro hfault hno
    obtain ⟨e, rfl, he⟩ := cycle_retires hcycle hstep hfault
    have hkept : e.state.DT = s.DT := kept_of_outcome State.DT he fun i hruns hexecutes =>
      hexecutes.delay fun x hx => hno x (hx ▸ hruns)
    rw [State.retired_DT, tick_toNat, hkept]
  case sound =>
    intro hfault hno
    obtain ⟨e, rfl, he⟩ := cycle_retires hcycle hstep hfault
    have hkept : e.state.ST = s.ST := kept_of_outcome State.ST he fun i hruns hexecutes =>
      hexecutes.sound fun x hx => hno x (hx ▸ hruns)
    rw [State.retired_ST, tick_toNat, hkept]
  case faulted =>
    intro hfault
    obtain hclear | ⟨k, rfl⟩ := cycle_fault hcycle hstep
    · exact absurd hclear hfault
    · exact ⟨rfl, rfl⟩

/-- A run through states of which `ok` holds starts in one, or has no step. -/
theorem runsThrough_start {ok : State → Prop} {n : Nat} {s t : State} (h : RunsThrough ok n s t) : ok s ∨ s = t := by
  cases n with
  | zero => exact .inr h
  | succ n => exact .inl h.1

/-- Settles O51: by induction on the number of cycles, each of which ticks the timer once. -/
theorem delayTimerCountsDownAlongARun : Obligations.DelayTimerCountsDownAlongARun := by
  unfold Obligations.DelayTimerCountsDownAlongARun
  intro n
  induction n with
  | zero =>
    rintro s t ⟨⟩ _
    rfl
  | succ n ih =>
    rintro s t ⟨⟨hsafe, hcycle, hno⟩, u, hstep, hrun⟩ hfault
    have hclear : u.fault = none := by
      obtain hok | rfl := runsThrough_start hrun
      · exact hok.1
      · exact hfault
    have htick : u.DT.toNat = s.DT.toNat - 1 := (timersTickOncePerCycle s u hsafe hcycle hstep).1 hclear hno
    rw [ih u t hrun hfault, htick, Nat.sub_sub, Nat.add_comm]

/-- Settles O52: the answer of a cycle that retires holds the redraw of its execute step, which CLS and DRW alone set,
and the tone of the ticked timer. -/
theorem redrawExactlyOnClsOrDrw : Obligations.RedrawExactlyOnClsOrDrw := by
  unfold Obligations.RedrawExactlyOnClsOrDrw
  intro s t redraw tone _ hcycle hstep hresult
  obtain ⟨-, ⟨k, rfl⟩ | ⟨e, -, rfl, he⟩⟩ := cycle_outcome hcycle hstep
  · cases hresult
  cases hresult
  refine ⟨?redraw, decide_eq_true_iff⟩
  case redraw =>
    obtain ⟨i, hruns, he⟩ | ⟨hnone, rfl⟩ := he
    · simp only [runs_iff_eq hruns]
      exact he.redraw
    · simp [hnone]

end Sys2Proof.Proofs.Steps
end

section
/-! Proofs of the statements on the invariant of the machine (10_state.md R24, R25, R29; 40_cycle.md R106). -/

namespace Sys2Proof.Proofs.Invariant

open Sys2Proof.Machine Sys2Proof.Spec Sys2Proof.Proofs.Outcome Sys2Proof.Proofs.ControlFlow Sys2Proof.Proofs.Steps

/-- The clauses of the invariant on the stack (R25): no entry exceeds 0x1000, and a live one is an address after a
CALL. -/
structure ReturnsInRange (s : State) : Prop where
  high : ∀ k : Fin 16, (s.stack[k]).toNat ≤ 0x1000
  low : ∀ k : Fin 16, k.val < s.sp.val → 0x202 ≤ (s.stack[k]).toNat

theorem executes_mem_wf {i : Instr} {s : State} {e : Effect} (he : Executes i s e) (hmem : s.mem.wf = true) :
    e.state.mem.wf = true := by
  cases hstores : stores s i with
  | none => rw [he.unstored hstores]; exact hmem
  | some span =>
    obtain ⟨base, count⟩ := span
    obtain ⟨hinside, bytes, rfl, hwritten⟩ := he.stored base count hstores
    rw [hwritten]
    exact Memory.wf_writeSpan hmem hinside

/-- An instruction that was fetched stands below 0xFFF: its second byte is in memory (R101). -/
theorem pc_lt_of_runs {s : State} {i : Instr} (h : s.Runs i) : s.pc.toNat < 0xFFF := by
  obtain ⟨-, -, op, hfetch, -⟩ := h
  by_contra htop
  cases hfetch.symm.trans (State.fetch_top htop)

/-- A CALL that was fetched stores a return address in range, and nothing else enters the stack. -/
theorem executes_returnsInRange {i : Instr} {s : State} {e : Effect} (he : Executes i s e)
    (hlow : 0x200 ≤ s.pc.toNat) (hhigh : s.pc.toNat < 0xFFF) (hstack : ReturnsInRange s) : ReturnsInRange e.state := by
  have hret : (s.pc + 2).toNat = s.pc.toNat + 2 := returnAddress_toNat ⟨hlow, hhigh.le⟩
  constructor
  · intro k
    obtain hsame | hnew := he.pushed k
    · rw [hsame]; exact hstack.high k
    · rw [hnew, hret]; omega
  · intro k hk
    obtain hlive | hnew := he.entered k hk
    · rw [he.live k hlive]; exact hstack.low k hlive
    · rw [hnew, hret]; omega

theorem inv_takeFault {s : State} (h : s.Inv) (k : Fault) : (s.takeFault k).Inv where
  memCanonical := h.memCanonical
  pcLow := h.pcLow
  pcHigh := h.pcHigh
  returnHigh := h.returnHigh
  returnLow := h.returnLow
  faultLatched := by rintro _ ⟨⟩; rfl
  okClear := nofun

theorem inv_retired {s : State} {e : Effect} (hpc : LegalPc (e.ctl.target s.pc)) (hclear : e.state.fault = none)
    (hmem : e.state.mem.wf = true) (hstack : ReturnsInRange e.state) : (s.retired e).Inv := by
  have hnew : (s.retired e).pc.toNat = e.ctl.target s.pc := (State.retire_in_range rfl hpc).2
  exact
    { memCanonical := hmem
      pcLow := hnew ▸ hpc.1
      pcHigh := hnew ▸ hpc.2
      returnHigh := hstack.high
      returnLow := hstack.low
      faultLatched := nofun
      okClear := by rintro _ _ ⟨⟩; exact ⟨hclear, rfl⟩ }

theorem inv_hostLoad {s : State} (h : s.Inv) (bytes : List Byte) : (s.hostLoad bytes).Inv where
  memCanonical := Memory.wf_load bytes h.memCanonical
  pcLow := h.pcLow
  pcHigh := h.pcHigh
  returnHigh := h.returnHigh
  returnLow := h.returnLow
  faultLatched := nofun
  okClear := nofun

theorem inv_reset : State.reset.Inv where
  memCanonical := rfl
  pcLow := by decide
  pcHigh := by decide
  returnHigh := by decide
  returnLow := by decide
  faultLatched := nofun
  okClear := nofun

/-- `Reset` establishes the invariant, whatever the state was: no clause speaks of the pending requests or the count of
cycles, which it keeps. -/
theorem inv_hostReset (s : State) : s.hostReset.Inv where
  memCanonical := inv_reset.memCanonical
  pcLow := inv_reset.pcLow
  pcHigh := inv_reset.pcHigh
  returnHigh := inv_reset.returnHigh
  returnLow := inv_reset.returnLow
  faultLatched := inv_reset.faultLatched
  okClear := inv_reset.okClear

/-- A cycle keeps the invariant. -/
theorem inv_cycle {s t : State} (h : s.Inv) (hcycle : s.CycleNext) (hstep : step s = .next t) : t.Inv := by
  have hstack : ReturnsInRange s := ⟨h.returnHigh, h.returnLow⟩
  obtain ⟨hsafe, ⟨k, rfl⟩ | ⟨e, hpc, rfl, ⟨i, hruns, he⟩ | ⟨-, rfl⟩⟩⟩ := cycle_outcome hcycle hstep
  · exact inv_takeFault h k
  · exact inv_retired hpc (he.keeps.fault.trans hsafe) (executes_mem_wf he h.memCanonical)
      (executes_returnsInRange he h.pcLow (pc_lt_of_runs hruns) hstack)
  · exact inv_retired hpc hsafe h.memCanonical hstack

/-- Settles O59: by the request served; a cycle keeps the clauses because an execute step stores inside memory and
pushes only the address after a CALL, and its end checks `pc` and answers from the latch and the ticked `ST`. -/
theorem everyStepKeepsTheInvariant : Obligations.EveryStepKeepsTheInvariant := by
  unfold Obligations.EveryStepKeepsTheInvariant
  intro s t hinv hstep
  rcases requests_cases s with hcycle | ⟨rest, hreset⟩ | ⟨bytes, rest, hload⟩
  · exact inv_cycle hinv hcycle hstep
  · cases hstep.symm.trans (step_of_reset hreset)
    exact inv_hostReset s
  · cases hstep.symm.trans (step_of_load hload)
    exact inv_hostLoad hinv bytes

/-- Settles O58: memory lists nothing, `pc` is 0x200, and every stack entry is 0, none of them live. -/
theorem resetMeetsTheInvariant : Obligations.ResetMeetsTheInvariant := by
  unfold Obligations.ResetMeetsTheInvariant
  exact inv_reset

/-- Settles O60: AddressingFault of a RET says that the entry popped is no legal `pc`, and the invariant leaves 0x1000
as the only such value of a live entry. -/
theorem retFaultsOnlyOnTheTopReturnAddress : Obligations.RetFaultsOnlyOnTheTopReturnAddress := by
  unfold Obligations.RetFaultsOnlyOnTheTopReturnAddress
  intro s t hinv hruns hstep hfault
  rw [step_of_runs hruns] at hstep
  obtain ⟨hstack, hdata | hpc⟩ :=
    (Instructions.addressingFaultExactlyWhenOutOfRange .ret s t hruns.1 hstep).mp hfault
  · exact hdata.elim
  have hused : s.sp.val ≠ 0 := hstack
  let k : Fin 16 := ⟨s.sp.val - 1, by omega⟩
  have hk : s.sp.val = k.val + 1 := by simp only [k]; omega
  rw [pcCandidate_ret hk] at hpc
  have hhigh := hinv.returnHigh k
  have hlow := hinv.returnLow k (by omega)
  exact ⟨k, hk, by omega⟩

end Sys2Proof.Proofs.Invariant
end

section
/-! Proofs of the statements on the decoder and the encoder (30_encoding.md): each is the other's inverse (R82 to
R84), the decoder is the opcode table (R84, R85), and the words it rejects are those of R86. -/

namespace Sys2Proof.Proofs.Decoder

/-! ## Decoding what the encoder made -/

/-- Settles O1: the fields of an encoded word are its operands, and its family and sub-opcode select the arm of the
decoder that puts them together again. -/
theorem decodeOfEncodeIsIdentity : Obligations.DecodeOfEncodeIsIdentity := by
  unfold Obligations.DecodeOfEncodeIsIdentity
  intro i hwf
  cases i with
  | cls | ret => decide
  | jp nnn | call nnn | ldI nnn | jpV0 nnn =>
    have haddr : nnn.toNat ≤ 0xFFF := of_decide_eq_true hwf
    simp [encode, decode, opNNN_wordNNN _ _ haddr]
  | seByte x kk | sneByte x kk | ldByte x kk | addByte x kk | rnd x kk => simp [encode, decode]
  | seReg x y => simp [encode, decode, decode5]
  | sneReg x y => simp [encode, decode, decode9]
  | ldReg x y | orReg x y | andReg x y | xorReg x y | addReg x y | subReg x y | shr x y | subnReg x y | shl x y =>
    simp [encode, decode, decode8]
  | drw x y n =>
    have hrows : n ≤ 15 := of_decide_eq_true hwf
    have hn : (BitVec.ofNat 4 n).toNat = n := by rw [BitVec.toNat_ofNat, Nat.mod_eq_of_lt (by omega)]
    simp [encode, decode, hn]
  | skp x | sknp x => simp [encode, decode, decodeE]
  | ldVxDT x | ldVxK x | ldDT x | ldST x | addI x | ldF x | ldB x | ldMemVx x | ldVxMem x =>
    simp [encode, decode, decodeF]

/-! ## Encoding what the decoder answered -/

theorem opNNN_wf (op : Word) : wfAddr (opNNN op) = true := by
  simp only [wfAddr, opNNN_toNat, decide_eq_true_eq]; omega

theorem wordNNN_eq {op : Word} {f : BitVec 4} (hfam : opFam op = f) : wordNNN f (opNNN op) = op := by
  rw [← hfam, wordNNN_fields]

theorem wordXKK_eq {op : Word} {f : BitVec 4} {kk : Byte} (hfam : opFam op = f) (hkk : opKK op = kk) :
    wordXKK f (opX op) kk = op := by
  rw [← hfam, ← hkk, wordXKK_fields]

theorem wordXYN_eq {op : Word} {f n : BitVec 4} (hfam : opFam op = f) (hn : opN op = n) :
    wordXYN f (opX op) (opY op) n = op := by
  rw [← hfam, ← hn, wordXYN_fields]

theorem encode_decode0 {op : Word} {i : Instr} (h : decode0 op = .ok i) : i.wf = true ∧ encode i = op := by
  unfold decode0 at h
  split at h
  next hop => cases h; exact ⟨rfl, hop.symm⟩
  split at h
  next hop => cases h; exact ⟨rfl, hop.symm⟩
  · cases h

theorem encode_decode5 {op : Word} {i : Instr} (hfam : opFam op = 0x5#4) (h : decode5 op = .ok i) :
    i.wf = true ∧ encode i = op := by
  unfold decode5 at h
  split at h
  next hn => cases h; exact ⟨rfl, wordXYN_eq hfam hn⟩
  · cases h

theorem encode_decode9 {op : Word} {i : Instr} (hfam : opFam op = 0x9#4) (h : decode9 op = .ok i) :
    i.wf = true ∧ encode i = op := by
  unfold decode9 at h
  split at h
  next hn => cases h; exact ⟨rfl, wordXYN_eq hfam hn⟩
  · cases h

theorem encode_decode8 {op : Word} {i : Instr} (hfam : opFam op = 0x8#4) (h : decode8 op = .ok i) :
    i.wf = true ∧ encode i = op := by
  unfold decode8 at h
  split at h <;> cases h
  all_goals exact ⟨rfl, wordXYN_eq hfam ‹_›⟩

theorem encode_decodeE {op : Word} {i : Instr} (hfam : opFam op = 0xE#4) (h : decodeE op = .ok i) :
    i.wf = true ∧ encode i = op := by
  unfold decodeE at h
  split at h <;> cases h
  all_goals exact ⟨rfl, wordXKK_eq hfam ‹_›⟩

theorem encode_decodeF {op : Word} {i : Instr} (hfam : opFam op = 0xF#4) (h : decodeF op = .ok i) :
    i.wf = true ∧ encode i = op := by
  unfold decodeF at h
  split at h <;> cases h
  all_goals exact ⟨rfl, wordXKK_eq hfam ‹_›⟩

/-- Every family, in the order of the opcode map. -/
theorem nibble_cases (f : BitVec 4) :
    f = 0x0#4 ∨ f = 0x1#4 ∨ f = 0x2#4 ∨ f = 0x3#4 ∨ f = 0x4#4 ∨ f = 0x5#4 ∨ f = 0x6#4 ∨ f = 0x7#4 ∨
    f = 0x8#4 ∨ f = 0x9#4 ∨ f = 0xA#4 ∨ f = 0xB#4 ∨ f = 0xC#4 ∨ f = 0xD#4 ∨ f = 0xE#4 ∨ f = 0xF#4 := by
  revert f; decide

/-- Settles O2: by the family of the word; the operands the decoder answers are its fields, so that the encoder puts the
same word together from them. -/
theorem encodeOfDecodeIsIdentity : Obligations.EncodeOfDecodeIsIdentity := by
  unfold Obligations.EncodeOfDecodeIsIdentity
  intro op i h
  rcases nibble_cases (opFam op) with
    hfam | hfam | hfam | hfam | hfam | hfam | hfam | hfam | hfam | hfam | hfam | hfam | hfam | hfam | hfam | hfam
  all_goals rw [decode, hfam] at h
  · exact encode_decode0 h
  · cases h; exact ⟨opNNN_wf op, wordNNN_eq hfam⟩
  · cases h; exact ⟨opNNN_wf op, wordNNN_eq hfam⟩
  · cases h; exact ⟨rfl, wordXKK_eq hfam rfl⟩
  · cases h; exact ⟨rfl, wordXKK_eq hfam rfl⟩
  · exact encode_decode5 hfam h
  · cases h; exact ⟨rfl, wordXKK_eq hfam rfl⟩
  · cases h; exact ⟨rfl, wordXKK_eq hfam rfl⟩
  · exact encode_decode8 hfam h
  · exact encode_decode9 hfam h
  · cases h; exact ⟨opNNN_wf op, wordNNN_eq hfam⟩
  · cases h; exact ⟨opNNN_wf op, wordNNN_eq hfam⟩
  · cases h; exact ⟨rfl, wordXKK_eq hfam rfl⟩
  · cases h
    have hrows : wfRows (opN op).toNat = true := decide_eq_true (Nat.le_of_lt_succ (opN op).isLt)
    have hn : opN op = BitVec.ofNat 4 (opN op).toNat := by rw [BitVec.ofNat_toNat, BitVec.setWidth_eq]
    exact ⟨hrows, wordXYN_eq hfam hn⟩
  · exact encode_decodeE hfam h
  · exact encode_decodeF hfam h

/-! ## The unrecognized words -/

theorem decode0_error_iff (op : Word) : (∃ e, decode0 op = .error e) ↔ op.toNat ≠ 0x0E0 ∧ op.toNat ≠ 0x0EE := by
  unfold decode0
  simp only [← BitVec.toNat_inj]
  split
  next h => simp [h]
  split
  next h => simp [h]
  next h₁ h₂ => exact iff_of_true ⟨_, rfl⟩ ⟨h₁, h₂⟩

theorem decode5_error_iff (op : Word) : (∃ e, decode5 op = .error e) ↔ op.toNat % 16 ≠ 0 := by
  rw [← opN_toNat]
  unfold decode5
  simp only [← BitVec.toNat_inj]
  split
  next h => simp [h]
  next h => exact iff_of_true ⟨_, rfl⟩ h

theorem decode9_error_iff (op : Word) : (∃ e, decode9 op = .error e) ↔ op.toNat % 16 ≠ 0 := by
  rw [← opN_toNat]
  unfold decode9
  simp only [← BitVec.toNat_inj]
  split
  next h => simp [h]
  next h => exact iff_of_true ⟨_, rfl⟩ h

theorem decode8_error_iff (op : Word) :
    (∃ e, decode8 op = .error e) ↔ op.toNat % 16 ∈ [0x8, 0x9, 0xA, 0xB, 0xC, 0xD, 0xF] := by
  rw [← opN_toNat, decode8]
  rcases nibble_cases (opN op) with h | h | h | h | h | h | h | h | h | h | h | h | h | h | h | h <;> simp [h]

theorem decodeE_error_iff (op : Word) :
    (∃ e, decodeE op = .error e) ↔ op.toNat % 256 ≠ 0x9E ∧ op.toNat % 256 ≠ 0xA1 := by
  rw [← opKK_toNat, decodeE]
  split
  next h => simp [h]
  next h => simp [h]
  next h₁ h₂ => exact iff_of_true ⟨_, rfl⟩ ⟨BitVec.toNat_ne.mp h₁, BitVec.toNat_ne.mp h₂⟩

theorem decodeF_error_iff (op : Word) :
    (∃ e, decodeF op = .error e) ↔ op.toNat % 256 ∉ [0x07, 0x0A, 0x15, 0x18, 0x1E, 0x29, 0x33, 0x55, 0x65] := by
  rw [← opKK_toNat, decodeF]
  split
  case h_10 =>
    refine iff_of_true ⟨_, rfl⟩ ?_
    simp_all [← BitVec.toNat_inj]
  all_goals simp [*]

/-- Settles O4: family by family; in the families that R86 does not name the decoder answers every word. -/
theorem unrecognizedWordsAreThoseOfTheTable : Obligations.UnrecognizedWordsAreThoseOfTheTable := by
  unfold Obligations.UnrecognizedWordsAreThoseOfTheTable
  intro op
  rw [← opFam_toNat]
  rcases nibble_cases (opFam op) with
    hfam | hfam | hfam | hfam | hfam | hfam | hfam | hfam | hfam | hfam | hfam | hfam | hfam | hfam | hfam | hfam
  all_goals
    rw [decode, hfam]
    simp [decode0_error_iff, decode5_error_iff, decode8_error_iff, decode9_error_iff, decodeE_error_iff,
      decodeF_error_iff]

/-! ## The opcode rows -/

/-- An instruction's word selects its row. -/
theorem row_selects_encode : ∀ i : Instr, i.row.selects (encode i) = true
  | .cls => Laws.EncodedWordSelectsRow.cls
  | .ret => Laws.EncodedWordSelectsRow.ret
  | .jp nnn => Laws.EncodedWordSelectsRow.jp nnn
  | .call nnn => Laws.EncodedWordSelectsRow.call nnn
  | .seByte x kk => Laws.EncodedWordSelectsRow.seByte x kk
  | .sneByte x kk => Laws.EncodedWordSelectsRow.sneByte x kk
  | .seReg x y => Laws.EncodedWordSelectsRow.seReg x y
  | .sneReg x y => Laws.EncodedWordSelectsRow.sneReg x y
  | .ldByte x kk => Laws.EncodedWordSelectsRow.ldByte x kk
  | .addByte x kk => Laws.EncodedWordSelectsRow.addByte x kk
  | .ldReg x y => Laws.EncodedWordSelectsRow.ldReg x y
  | .orReg x y => Laws.EncodedWordSelectsRow.orReg x y
  | .andReg x y => Laws.EncodedWordSelectsRow.andReg x y
  | .xorReg x y => Laws.EncodedWordSelectsRow.xorReg x y
  | .addReg x y => Laws.EncodedWordSelectsRow.addReg x y
  | .subReg x y => Laws.EncodedWordSelectsRow.subReg x y
  | .shr x y => Laws.EncodedWordSelectsRow.shr x y
  | .subnReg x y => Laws.EncodedWordSelectsRow.subnReg x y
  | .shl x y => Laws.EncodedWordSelectsRow.shl x y
  | .skp x => Laws.EncodedWordSelectsRow.skp x
  | .sknp x => Laws.EncodedWordSelectsRow.sknp x
  | .ldI nnn => Laws.EncodedWordSelectsRow.ldI nnn
  | .jpV0 nnn => Laws.EncodedWordSelectsRow.jpV0 nnn
  | .rnd x kk => Laws.EncodedWordSelectsRow.rnd x kk
  | .drw x y n => Laws.EncodedWordSelectsRow.drw x y n
  | .ldVxDT x => Laws.EncodedWordSelectsRow.ldVxDT x
  | .ldVxK x => Laws.EncodedWordSelectsRow.ldVxK x
  | .ldDT x => Laws.EncodedWordSelectsRow.ldDT x
  | .ldST x => Laws.EncodedWordSelectsRow.ldST x
  | .addI x => Laws.EncodedWordSelectsRow.addI x
  | .ldF x => Laws.EncodedWordSelectsRow.ldF x
  | .ldB x => Laws.EncodedWordSelectsRow.ldB x
  | .ldMemVx x => Laws.EncodedWordSelectsRow.ldMemVx x
  | .ldVxMem x => Laws.EncodedWordSelectsRow.ldVxMem x

theorem row_mem_opcodeRows (i : Instr) : i.row ∈ opcodeRows := by
  cases i <;> simp [opcodeRows, Instr.row]

/-- Two rows are disjoint when they differ on a bit that both of them fix. -/
theorem disjoint_of_fixed_bits {r q : OpRow} (h : r.value &&& q.mask ≠ q.value &&& r.mask) (op : Word) :
    ¬ (r.selects op = true ∧ q.selects op = true) := by
  simp only [OpRow.selects, beq_iff_eq]
  rintro ⟨hr, hq⟩
  apply h
  rw [← hr, ← hq, BitVec.and_assoc, BitVec.and_assoc, BitVec.and_comm r.mask]

theorem opcodeRows_differ : opcodeRows.Pairwise fun r q => r.value &&& q.mask ≠ q.value &&& r.mask := by
  decide

theorem and_of_selects {m v op : Word} (h : (⟨m, v⟩ : OpRow).selects op = true) : v = op &&& m :=
  (beq_iff_eq.mp h).symm

theorem opFam_of_selects_F000 {v op : Word} (h : (⟨0xF000, v⟩ : OpRow).selects op = true) : opFam op = opFam v := by
  have hv : v = wordNNN (opFam op) 0 := (and_of_selects h).trans (and_F000 op)
  rw [hv, opFam_wordNNN]

theorem fields_of_selects_F00F {v op : Word} (h : (⟨0xF00F, v⟩ : OpRow).selects op = true) :
    opFam op = opFam v ∧ opN op = opN v := by
  have hv : v = wordXYN (opFam op) 0 0 (opN op) := (and_of_selects h).trans (and_F00F op)
  rw [hv, opFam_wordXYN, opN_wordXYN]
  exact ⟨rfl, rfl⟩

theorem fields_of_selects_F0FF {v op : Word} (h : (⟨0xF0FF, v⟩ : OpRow).selects op = true) :
    opFam op = opFam v ∧ opKK op = opKK v := by
  have hv : v = wordXKK (opFam op) 0 (opKK op) := (and_of_selects h).trans (and_F0FF op)
  rw [hv, opFam_wordXKK, opKK_wordXKK]
  exact ⟨rfl, rfl⟩

theorem eq_of_selects_FFFF {v op : Word} (h : (⟨0xFFFF, v⟩ : OpRow).selects op = true) : op = v := by
  obtain rfl := and_of_selects h
  exact BitVec.and_allOnes.symm

/-- A word that selects the row of an instruction decodes to an instruction of that row. -/
theorem decode_of_row_selects (i : Instr) {op : Word} (h : i.row.selects op = true) :
    ∃ j, decode op = .ok j ∧ j.row = i.row := by
  cases i with
  | cls | ret =>
    cases eq_of_selects_FFFF h
    exact ⟨_, rfl, rfl⟩
  | jp | call | seByte | sneByte | ldByte | addByte | ldI | jpV0 | rnd | drw =>
    have hfam := opFam_of_selects_F000 h
    rw [decode, hfam]
    exact ⟨_, rfl, rfl⟩
  | seReg | sneReg =>
    obtain ⟨hfam, hn⟩ := fields_of_selects_F00F h
    rw [decode, hfam]
    exact ⟨_, if_pos hn, rfl⟩
  | ldReg | orReg | andReg | xorReg | addReg | subReg | shr | subnReg | shl =>
    obtain ⟨hfam, hn⟩ := fields_of_selects_F00F h
    rw [decode, hfam]
    change ∃ j, decode8 op = .ok j ∧ _
    rw [decode8, hn]
    exact ⟨_, rfl, rfl⟩
  | skp | sknp =>
    obtain ⟨hfam, hkk⟩ := fields_of_selects_F0FF h
    rw [decode, hfam]
    change ∃ j, decodeE op = .ok j ∧ _
    rw [decodeE, hkk]
    exact ⟨_, rfl, rfl⟩
  | ldVxDT | ldVxK | ldDT | ldST | addI | ldF | ldB | ldMemVx | ldVxMem =>
    obtain ⟨hfam, hkk⟩ := fields_of_selects_F0FF h
    rw [decode, hfam]
    change ∃ j, decodeF op = .ok j ∧ _
    rw [decodeF, hkk]
    exact ⟨_, rfl, rfl⟩

theorem exists_row_eq {r : OpRow} (h : r ∈ opcodeRows) : ∃ i : Instr, i.row = r := by
  simp only [opcodeRows, List.mem_append, List.mem_map] at h
  obtain ((⟨i, -, hi⟩ | ⟨i, -, hi⟩) | ⟨i, -, hi⟩) | ⟨i, -, hi⟩ := h
  all_goals exact ⟨i, hi⟩

/-- Settles O3: two rows differ on a bit both fix, a decoded word is the word of its instruction and so selects its row,
and a word that selects a row has the fields that the decoder tests for. -/
theorem decodeFollowsOpcodeRows : Obligations.DecodeFollowsOpcodeRows := by
  unfold Obligations.DecodeFollowsOpcodeRows
  refine ⟨rfl, opcodeRows_differ.imp disjoint_of_fixed_bits, ?decoded, ?selected⟩
  case decoded =>
    intro op i hdecode
    obtain ⟨-, rfl⟩ := encodeOfDecodeIsIdentity op i hdecode
    exact ⟨row_mem_opcodeRows i, row_selects_encode i⟩
  case selected =>
    intro op r hr hselects
    obtain ⟨i, rfl⟩ := exists_row_eq hr
    exact decode_of_row_selects i hselects

/-- Settles O5: each of the listed words, decoded. -/
theorem wordsOfTheVectorsDecode : Obligations.WordsOfTheVectorsDecode := by
  unfold Obligations.WordsOfTheVectorsDecode
  decide

end Sys2Proof.Proofs.Decoder
end

section
/-! Proofs of the statements on single instructions: the register ALU group (R148 to R150), RET (R120), the index
register (R161, R162), timers, keys and the random byte (R191 to R197). -/

namespace Sys2Proof.Proofs.SingleInstructions

open Sys2Proof.Machine Sys2Proof.Spec Sys2Proof.Proofs.Cycle Sys2Proof.Proofs.ControlFlow Sys2Proof.Proofs.Alu
  Sys2Proof.Proofs.IndexMemory

/-! ## The register ALU group -/

theorem shiftRight_one_toNat (a : Byte) : (a >>> 1).toNat = a.toNat / 2 := by
  rw [BitVec.toNat_ushiftRight, Nat.shiftRight_eq_div_pow]

theorem shiftLeft_one_toNat (a : Byte) : (a <<< 1).toNat = a.toNat * 2 % 256 := by
  rw [BitVec.toNat_shiftLeft, Nat.shiftLeft_eq]

/-- Settles O17: SUB with the operands exchanged. -/
theorem subnRegWritesReverseDifferenceThenNoBorrow : Obligations.SubnRegWritesReverseDifferenceThenNoBorrow := by
  unfold Obligations.SubnRegWritesReverseDifferenceThenNoBorrow
  intro x y s hlegal
  exact onlyRegisters_of_exec_resultAndFlag (exec_subnReg x y s) (sub_toNat _ _) (noBorrow_toNat _ _) hlegal

/-- Settles O18: the shifts as division and multiplication by 2, the bit shifted out as the remainder or the carry. -/
theorem shiftsWriteResultThenBitShiftedOut : Obligations.ShiftsWriteResultThenBitShiftedOut := by
  unfold Obligations.ShiftsWriteResultThenBitShiftedOut
  intro x y s hlegal
  constructor
  · exact onlyRegisters_of_exec_resultAndFlag (exec_shr x y s) (shiftRight_one_toNat _) (lowBit_toNat _) hlegal
  · exact onlyRegisters_of_exec_resultAndFlag (exec_shl x y s) (shiftLeft_one_toNat _) (highBit_toNat _) hlegal

/-! ## RET -/

/-- Settles O21: an empty stack faults in the pop; otherwise the entry popped is the jump's target as it stands, and the
range check decides. -/
theorem retPopsReturnAddressOrFaults : Obligations.RetPopsReturnAddressOrFaults := by
  unfold Obligations.RetPopsReturnAddressOrFaults
  intro s
  have htarget : ∀ k : Fin 16, (Ctl.jump (s.stack[k]).toNat).target s.pc = (s.stack[k]).toNat := fun _ => rfl
  refine ⟨?pops, ?outOfRange, ?empty⟩
  case pops =>
    intro k hk hlegal
    rw [exec_ret_ok hk, (State.retire_in_range (htarget k) hlegal).1]
    exact ⟨_, rfl, retired_of_legal (htarget k) hlegal rfl, ⟨tick_toNat s.DT, tick_toNat s.ST⟩, fun _ => rfl, rfl,
      fun _ _ => rfl, fun _ => rfl, rfl, fun _ => rfl⟩
  case outOfRange =>
    intro k hk hillegal
    exact ⟨_, (exec_ret_ok hk).trans (congrArg _ (State.retire_out_of_range (htarget k) hillegal)),
      State.takeFault_fault _ _, State.takeFault_result _ _⟩
  case empty =>
    intro hempty
    exact ⟨_, exec_ret_empty hempty, State.takeFault_fault _ _, State.takeFault_result _ _⟩

/-! ## The index register -/

/-- Settles O26: the execute step writes `I` alone, with the wrapped sum. -/
theorem addIWrapsAtSixteenBits : Obligations.AddIWrapsAtSixteenBits := by
  unfold Obligations.AddIWrapsAtSixteenBits
  intro x s hlegal
  obtain ⟨hnext, hretired, hticked⟩ := retires_of_exec_advance (exec_addI x s) rfl rfl rfl hlegal
  exact ⟨_, hnext, hretired, hticked, fun _ => rfl, ⟨rfl, fun _ => rfl⟩, fun _ _ => rfl, fun _ => rfl,
    addToIndex_toNat _ _⟩

/-- Settles O27: the execute step writes `I` alone, and five times a byte fits it. -/
theorem ldFPointsAtGlyph : Obligations.LdFPointsAtGlyph := by
  unfold Obligations.LdFPointsAtGlyph
  intro x s hlegal
  obtain ⟨hnext, hretired, hticked⟩ := retires_of_exec_advance (exec_ldF x s) rfl rfl rfl hlegal
  exact ⟨_, hnext, hretired, hticked, fun _ => rfl, ⟨rfl, fun _ => rfl⟩, fun _ _ => rfl, fun _ => rfl,
    glyphAddress_toNat _⟩

/-! ## Timers, keys and the random byte -/

/-- After the tick a timer is above 0 exactly when it was at least 2. -/
theorem toneOf_tick (t : Byte) : toneOf (tick t) = decide (t.toNat ≥ 2) := by
  rw [toneOf_eq, tick_toNat]
  exact decide_eq_decide.mpr (by omega)

/-- Settles O35: the end of the cycle ticks what the execute step left in the timers, the written one included. -/
theorem timerWritesAreTickedInTheSameCycle : Obligations.TimerWritesAreTickedInTheSameCycle := by
  unfold Obligations.TimerWritesAreTickedInTheSameCycle
  intro x s hlegal
  have htarget : Ctl.advance2.target s.pc = s.pc.toNat + 2 := rfl
  constructor
  · rw [exec_ldDT, (State.retire_in_range htarget hlegal).1]
    exact ⟨_, rfl, retired_of_legal htarget hlegal rfl, fun _ => rfl, rfl, ⟨rfl, fun _ => rfl⟩, fun _ _ => rfl,
      fun _ => rfl, tick_toNat _, tick_toNat _⟩
  · rw [exec_ldST, (State.retire_in_range htarget hlegal).1]
    exact ⟨_, rfl, retired_of_legal htarget hlegal rfl, fun _ => rfl, rfl, ⟨rfl, fun _ => rfl⟩, fun _ _ => rfl,
      fun _ => rfl, tick_toNat _, tick_toNat _, by rw [State.retired_result, toneOf_tick]; rfl⟩

theorem keyHeld_eq {s : State} {k : Fin 16} {v : Byte} (h : k.val = v.toNat % 16) : s.keyHeld v = s.input.keys[k] := by
  obtain rfl : k = keyIndex v := Fin.ext h
  rfl

/-- Settles O36: the skip law, on the key that `Vx mod 16` names. -/
theorem keySkipsTestTheKeyOfThisCycle : Obligations.KeySkipsTestTheKeyOfThisCycle := by
  unfold Obligations.KeySkipsTestTheKeyOfThisCycle
  intro x k s hk
  have hkey : s.keyHeld (s.readV x) = s.input.keys[k] := keyHeld_eq hk
  refine ⟨fun held => ?_, fun free => ?_, fun free => ?_, fun held => ?_⟩
  · exact goesTo_four_of_skip (exec_skp x s) (hkey.trans held)
  · exact goesTo_two_of_skip (exec_skp x s) (hkey.trans free)
  · exact goesTo_four_of_skip (exec_sknp x s) (by rw [hkey, free]; rfl)
  · exact goesTo_two_of_skip (exec_sknp x s) (by rw [hkey, held]; rfl)

/-- Settles O37: with no key held the cycle retires at its own `pc`; otherwise the execute step is one register write,
of the number of the smallest key held. -/
theorem ldVxKWaitsOrTakesTheSmallestKey : Obligations.LdVxKWaitsOrTakesTheSmallestKey := by
  unfold Obligations.LdVxKWaitsOrTakesTheSmallestKey
  intro x s
  constructor
  · intro hlegal hfree
    exact (goesTo_of_exec_unchanged (exec_ldVxK_wait x (firstKey_none hfree)) rfl).1 hlegal
  · intro k hlegal hheld hsmallest
    obtain ⟨t, hnext, honly, hreg⟩ :=
      onlyRegisters_of_exec_result (exec_ldVxK_held x (firstKey_some hheld hsmallest)) hlegal
    have hk : (BitVec.ofNat 8 k.val).toNat = k.val := by rw [BitVec.toNat_ofNat, Nat.mod_eq_of_lt (by omega)]
    exact ⟨t, hnext, honly, fun r => by rw [hreg, apply_ite BitVec.toNat, hk]⟩

/-- Settles O38: the execute step is one register write, of the library's AND of the random byte and the mask. -/
theorem rndMasksTheRandomByte : Obligations.RndMasksTheRandomByte := by
  unfold Obligations.RndMasksTheRandomByte
  intro x kk s hlegal
  exact onlyRegisters_of_exec_result_bits (exec_rnd x kk s) (fun _ => BitVec.getLsbD_and) hlegal

end Sys2Proof.Proofs.SingleInstructions
end

section
/-! Proof of the statement on the inputs of a cycle (10_state.md R33; R196, R198). -/

namespace Sys2Proof.Proofs.Inputs

open Sys2Proof.Machine Sys2Proof.Spec

/-- The state whose pending cycle has these inputs. -/
def withInputs (s : State) (rest : List HostRequest) (p : CycleInput) : State := { s with requests := .cycle p :: rest }

/-- An instruction whose cycle comes to an outcome that does not depend on the inputs. -/
theorem exec_eq_of_outcome {i : Instr} {s : State} {rest : List HostRequest}
    {outcome : CycleInput → Host.Outcome State Fault Refusal} {p q : CycleInput}
    (hexec : ∀ p, exec i (withInputs s rest p) = outcome p) (hsame : outcome p = outcome q) :
    exec i (withInputs s rest p) = exec i (withInputs s rest q) := by
  rw [hexec, hexec, hsame]

/-- Two pending cycles that differ in their inputs alone end alike: an instruction reads the inputs only as a key or as
the random byte, and the end of the cycle drops the request that holds them. -/
theorem exec_withInputs_congr {i : Instr} {s : State} {rest : List HostRequest} {p q : CycleInput}
    (hrand : (∃ x kk, i = .rnd x kk) → p.rand = q.rand)
    (hkeys : (∃ x, i = .skp x ∨ i = .sknp x ∨ i = .ldVxK x) → p.keys = q.keys) :
    exec i (withInputs s rest p) = exec i (withInputs s rest q) := by
  obtain ⟨pkeys, prand⟩ := p
  obtain ⟨qkeys, qrand⟩ := q
  cases i with
  | rnd x kk =>
    obtain rfl : prand = qrand := hrand ⟨x, kk, rfl⟩
    rfl
  | skp x =>
    obtain rfl : pkeys = qkeys := hkeys ⟨x, .inl rfl⟩
    rfl
  | sknp x =>
    obtain rfl : pkeys = qkeys := hkeys ⟨x, .inr (.inl rfl)⟩
    rfl
  | ldVxK x =>
    obtain rfl : pkeys = qkeys := hkeys ⟨x, .inr (.inr rfl)⟩
    cases hkey : firstKey pkeys with
    | some k =>
      exact (exec_ldVxK_held x (s := withInputs s rest ⟨pkeys, prand⟩) hkey).trans
        (exec_ldVxK_held x (s := withInputs s rest ⟨pkeys, qrand⟩) hkey).symm
    | none =>
      exact (exec_ldVxK_wait x (s := withInputs s rest ⟨pkeys, prand⟩) hkey).trans
        (exec_ldVxK_wait x (s := withInputs s rest ⟨pkeys, qrand⟩) hkey).symm
  | call nnn =>
    by_cases hfree : s.sp.val < 16
    · exact exec_eq_of_outcome (fun p => exec_call_ok nnn (s := withInputs s rest p) hfree) rfl
    · have hfull : s.sp.val = 16 := by omega
      exact exec_eq_of_outcome (fun p => exec_call_full nnn (s := withInputs s rest p) hfull) rfl
  | ret =>
    by_cases hempty : s.sp.val = 0
    · exact exec_eq_of_outcome (fun _ => exec_ret_empty hempty) rfl
    · have hused : s.sp.val = (⟨s.sp.val - 1, by omega⟩ : Fin 16).val + 1 := by simp only; omega
      exact exec_eq_of_outcome (fun p => exec_ret_ok (s := withInputs s rest p) hused) rfl
  | ldB x =>
    by_cases hinside : s.I.toNat + 2 ≤ 0xFFF
    · exact exec_eq_of_outcome (fun _ => exec_ldB_ok x hinside) rfl
    · exact exec_eq_of_outcome (fun _ => exec_ldB_outside x (Nat.not_le.mp hinside)) rfl
  | ldMemVx x =>
    by_cases hinside : s.I.toNat + x.val ≤ 0xFFF
    · exact exec_eq_of_outcome (fun _ => exec_ldMemVx_ok x hinside) rfl
    · exact exec_eq_of_outcome (fun _ => exec_ldMemVx_outside x (Nat.not_le.mp hinside)) rfl
  | ldVxMem x =>
    by_cases hinside : s.I.toNat + x.val ≤ 0xFFF
    · exact exec_eq_of_outcome (fun _ => exec_ldVxMem_ok x hinside) rfl
    · exact exec_eq_of_outcome (fun _ => exec_ldVxMem_outside x (Nat.not_le.mp hinside)) rfl
  | drw x y n =>
    by_cases hinside : n = 0 ∨ s.I.toNat + n - 1 ≤ 0xFFF
    · exact exec_eq_of_outcome (fun _ => exec_drw_ok x y hinside) rfl
    · exact exec_eq_of_outcome (fun _ => exec_drw_outside x y hinside) rfl
  | _ => rfl

/-- Settles O39: the input read is the one of the request served, and an instruction reads no more of it than the keys
or the random byte. -/
theorem inputsReachOnlyKeyAndRandomInstructions : Obligations.InputsReachOnlyKeyAndRandomInstructions := by
  unfold Obligations.InputsReachOnlyKeyAndRandomInstructions
  intro s p q rest i
  refine ⟨State.input_of_request rfl, ?noKeys, ?noRandom⟩
  case noKeys =>
    intro hskp hsknp hldVxK hrand
    refine exec_withInputs_congr (fun _ => hrand) ?_
    rintro ⟨x, h | h | h⟩
    · exact absurd h (hskp x)
    · exact absurd h (hsknp x)
    · exact absurd h (hldVxK x)
  case noRandom =>
    intro hrnd hkeys
    exact exec_withInputs_congr (fun ⟨x, kk, h⟩ => absurd h (hrnd x kk)) (fun _ => hkeys)

end Sys2Proof.Proofs.Inputs
end

section
/-! Proofs of the statements on DRW (44_display.md R181; 95_test_vectors.md A7). -/

namespace Sys2Proof.Proofs.Sprites

open Sys2Proof.Machine Sys2Proof.Spec Sys2Proof.Proofs.Cycle Sys2Proof.Proofs.Outcome

/-- The pixels under the sprite engine's 1 bits are those the statements call covered. -/
theorem lit_iff_covers (s : State) (x y : Reg) (n : Nat) (px : Fin 64) (py : Fin 32) :
    Lit (s.readV x).toNat (s.readV y).toNat 0 (s.mem.readSpan s.I.toNat n) px py ↔ Covers s x y n px py := by
  constructor
  · rintro ⟨row, col, hrow, hcol, hbit, hx, hy⟩
    rw [Memory.getElem_readSpan] at hbit
    rw [Memory.length_readSpan] at hrow
    rw [Nat.zero_add] at hy
    exact ⟨row, col, hrow, hcol, congrArg Fin.val hx, congrArg Fin.val hy, hbit⟩
  · rintro ⟨row, col, hrow, hcol, hx, hy, hbit⟩
    refine ⟨row, col, by rwa [Memory.length_readSpan], hcol, ?bit, Fin.ext hx, ?row⟩
    case bit => rwa [Memory.getElem_readSpan]
    case row => rw [Nat.zero_add]; exact Fin.ext hy

/-- What a sprite of at most 15 rows flips (R181). -/
theorem drawn_pixel (s : State) (x y : Reg) {n : Nat} (hn : n ≤ 15) (px : Fin 64) (py : Fin 32) :
    (s.drawn x y (s.mem.readSpan s.I.toNat n)).fb.pixel px py ≠ s.fb.pixel px py ↔ Covers s x y n px py := by
  rw [State.drawn_fb, drawSprite_pixel _ _ _ _ _ _ (by rw [Memory.length_readSpan]; omega), lit_iff_covers]

/-- What a sprite of at most 15 rows leaves in `VF` (R181). -/
theorem drawn_VF (s : State) (x y : Reg) {n : Nat} (hn : n ≤ 15) {hit : Bool}
    (hhit : hit = true ↔ ∃ px py, Covers s x y n px py ∧ s.fb.pixel px py = true) :
    (s.drawn x y (s.mem.readSpan s.I.toNat n)).V[VF] = flagByte hit := by
  have hcollision := drawSprite_collision (s.readV x).toNat (s.readV y).toNat (s.mem.readSpan s.I.toNat n) s.fb
    (by rw [Memory.length_readSpan]; omega)
  simp only [lit_iff_covers] at hcollision
  rw [State.drawn_V, getElem_setV, if_pos rfl, Bool.eq_iff_iff.mpr (hcollision.trans hhit.symm)]

/-- Settles O32: the execute step is what the sprite engine draws from the bytes at `I`, read with no fault where they
are in memory or there are none. -/
theorem drwFlipsExactlyTheCoveredPixels : Obligations.DrwFlipsExactlyTheCoveredPixels := by
  unfold Obligations.DrwFlipsExactlyTheCoveredPixels
  intro x y n s hn hinside hlegal
  have htarget : Ctl.advance2.target s.pc = s.pc.toNat + 2 := rfl
  rw [exec_drw_ok x y hinside, (State.retire_in_range htarget hlegal).1]
  refine ⟨_, rfl, retired_of_legal htarget hlegal rfl, ⟨tick_toNat s.DT, tick_toNat s.ST⟩, rfl,
    ⟨rfl, fun _ => rfl⟩, fun _ => rfl, ?regs, drawn_pixel s x y hn, ?collides, ?misses⟩
  case regs =>
    intro r hr
    exact setV_other _ _ hr
  case collides =>
    intro hhit
    exact drawn_VF s x y hn (hit := true) (iff_of_true rfl hhit)
  case misses =>
    intro hmiss
    exact drawn_VF s x y hn (hit := false) (iff_of_false Bool.false_ne_true hmiss)

/-- DRW that ends with the latch clear drew, so that what O32 says of it holds. -/
theorem drw_of_noFault {x y : Reg} {n : Nat} {s t : State} (hn : n ≤ 15) (hnext : exec (.drw x y n) s = .next t)
    (hfault : t.fault = none) :
    t.I = s.I ∧ SameMem s t ∧ (∀ r : Reg, r ≠ VF → t.V[r] = s.V[r]) ∧
      (∀ px py, t.fb.pixel px py ≠ s.fb.pixel px py ↔ Covers s x y n px py) ∧
      ((∃ px py, Covers s x y n px py ∧ s.fb.pixel px py = true) → t.V[VF] = 1) ∧
      ((¬ ∃ px py, Covers s x y n px py ∧ s.fb.pixel px py = true) → t.V[VF] = 0) := by
  obtain ⟨-, hdata, hpc, -⟩ := exec_outcome_of_noFault hnext hfault
  have hinside : n = 0 ∨ s.I.toNat + n - 1 ≤ 0xFFF := by
    have : ¬ (1 ≤ n ∧ s.I.toNat + n - 1 > 0xFFF) := hdata
    omega
  obtain ⟨t', hnext', -, -, hI, -, hmem, hV, hfb, hcollides, hmisses⟩ :=
    drwFlipsExactlyTheCoveredPixels x y n s hn hinside hpc
  cases hnext.symm.trans hnext'
  exact ⟨hI, hmem, hV, hfb, hcollides, hmisses⟩

/-- Where `I`, memory and the two coordinate registers are the same, a sprite covers the same pixels. -/
theorem covers_congr {s t : State} {x y : Reg} (n : Nat) (hI : t.I = s.I) (hmem : SameMem s t)
    (hx : t.V[x] = s.V[x]) (hy : t.V[y] = s.V[y]) (px : Fin 64) (py : Fin 32) :
    Covers t x y n px py ↔ Covers s x y n px py := by
  simp only [Covers, hI, hx, hy, hmem _]

theorem eq_of_flipped_twice : ∀ {a b c : Bool}, (c ≠ b ↔ b ≠ a) → c = a := by
  decide

/-- Settles O33: the second draw covers the same pixels as the first and flips them back; over a clear screen the first
draw has set them, so that the second collides. -/
theorem drawingTwiceRestoresTheScreen : Obligations.DrawingTwiceRestoresTheScreen := by
  unfold Obligations.DrawingTwiceRestoresTheScreen
  intro x y n s t u hn hx hy hfirst hfirstOk hsecond hsecondOk
  obtain ⟨hI, hmem, hV, hfb, -, hmisses⟩ := drw_of_noFault hn hfirst hfirstOk
  obtain ⟨-, -, -, hfb', hcollides', -⟩ := drw_of_noFault hn hsecond hsecondOk
  have hcovers : ∀ px py, Covers t x y n px py ↔ Covers s x y n px py := covers_congr n hI hmem (hV x hx) (hV y hy)
  constructor
  · intro px py
    have hflips : u.fb.pixel px py ≠ t.fb.pixel px py ↔ t.fb.pixel px py ≠ s.fb.pixel px py := by
      rw [hfb', hcovers, hfb]
    exact eq_of_flipped_twice hflips
  · rintro ⟨px, py, hcovered⟩ hclear
    constructor
    · apply hmisses
      rintro ⟨qx, qy, hq, hlit⟩
      cases (hclear qx qy hq).symm.trans hlit
    · refine hcollides' ⟨px, py, (hcovers px py).mpr hcovered, ?_⟩
      have hflipped : t.fb.pixel px py ≠ s.fb.pixel px py := (hfb px py).mpr hcovered
      rw [hclear px py hcovered] at hflipped
      exact Bool.eq_true_of_not_eq_false hflipped

end Sys2Proof.Proofs.Sprites
end

section
/-! Proofs of the statements on two cycles in a row: CALL then RET (R129), a dump then a load (R164, R165), a dump
then a fetch (20_memory.md R61). -/

namespace Sys2Proof.Proofs.TwoCycles

open Sys2Proof.Machine Sys2Proof.Spec Sys2Proof.Proofs.Outcome Sys2Proof.Proofs.ControlFlow
  Sys2Proof.Proofs.IndexMemory Sys2Proof.Proofs.SingleInstructions

/-- Settles O53: the CALL that retires has pushed the address after it as the most recent entry, and the RET that
follows pops that entry, which is a legal `pc`. -/
theorem callThenRetComesBack : Obligations.CallThenRetComesBack := by
  unfold Obligations.CallThenRetComesBack
  intro nnn s t hsafe hlegal hcall hfault
  obtain ⟨hstack, -, htarget, -⟩ := exec_outcome_of_noFault hcall hfault
  have hfree : s.sp.val < 16 := by have : s.sp.val ≠ 16 := hstack; omega
  rw [exec_call_eq_retire_pushed nnn hfree, (State.retire_in_range (a := nnn.toNat) rfl htarget).1] at hcall
  cases hcall
  let k : Fin 16 := ⟨s.sp.val, hfree⟩
  have hentry : ((pushed s hfree).stack[k]).toNat = s.pc.toNat + 2 :=
    (congrArg BitVec.toNat (Vector.getElem_set_self hfree)).trans
      (BitVec.toNat_add_of_lt (Nat.lt_of_le_of_lt hlegal.2 (by decide)))
  obtain ⟨u, hret, hretired, -, hV, hI, hfb, hmem, hsp, -⟩ :=
    (retPopsReturnAddressOrFaults (s.retired { state := pushed s hfree, ctl := .jump nnn.toNat })).1 k rfl
      (hentry.symm ▸ hlegal)
  exact ⟨u, hret, hretired.fault.trans hsafe, hretired.pc.trans hentry, Fin.ext hsp, hV, hI, hfb, hmem⟩

/-- A dump that ends with the latch clear stored `V0` to `Vx` at `I`, and left `I` alone. -/
theorem dump_of_noFault {x : Reg} {s t : State} (hwf : s.mem.wf = true) (hnext : exec (.ldMemVx x) s = .next t)
    (hfault : t.fault = none) :
    s.I.toNat + x.val ≤ 0xFFF ∧ t.I = s.I ∧ ∀ r : Reg, r ≤ x → t.mem.read (s.I.toNat + r.val) = s.V[r] := by
  obtain ⟨-, hdata, hpc, -⟩ := exec_outcome_of_noFault hnext hfault
  have hinside : s.I.toNat + x.val ≤ 0xFFF := Nat.not_lt.mp hdata
  obtain ⟨t', hnext', -, -, -, hI, -, -, hstored, -⟩ :=
    (registerDumpStoresFirstRegistersOrFaults x s hwf hpc).1 hinside
  cases hnext.symm.trans hnext'
  exact ⟨hinside, hI, hstored⟩

/-- Settles O54: the load reads, at the same `I`, the bytes that the dump stored. -/
theorem dumpThenLoadRestoresRegisters : Obligations.DumpThenLoadRestoresRegisters := by
  unfold Obligations.DumpThenLoadRestoresRegisters
  intro x s t u regs hwf _ hdump hdumpOk hload hloadOk r
  obtain ⟨hinside, hI, hstored⟩ := dump_of_noFault hwf hdump hdumpOk
  obtain ⟨-, hdata, hpc, -⟩ := exec_outcome_of_noFault hload hloadOk
  obtain ⟨u', hload', -, hregs⟩ :=
    (registerLoadReadsFirstRegistersOrFaults x { t with V := regs } hpc).1 (Nat.not_lt.mp hdata)
  cases hload.symm.trans hload'
  rw [hregs r]
  split
  next hr => exact hI ▸ hstored r hr
  · rfl

/-- Settles O55: the next fetch joins the bytes at `I + a` and `I + b`, where the dump stored `Va` and `Vb`. -/
theorem storesAreSeenByTheNextFetch : Obligations.StoresAreSeenByTheNextFetch := by
  unfold Obligations.StoresAreSeenByTheNextFetch
  intro x a s t hwf _ hdump hdumpOk ha hpc
  obtain ⟨hinside, -, hstored⟩ := dump_of_noFault hwf hdump hdumpOk
  have hax : a.val < x.val := ha
  refine ⟨_, State.fetch_ok (by omega), fun b hb => ?_⟩
  have hbx : b ≤ x := by rw [Fin.le_def]; omega
  have hhigh : t.mem.read t.pc.toNat = s.V[a] := hpc ▸ hstored a ha.le
  have hlow : t.mem.read (t.pc.toNat + 1) = s.V[b] := by
    rw [hpc, Nat.add_assoc, ← hb]
    exact hstored b hbx
  rw [joinBytes_toNat, hhigh, hlow]

end Sys2Proof.Proofs.TwoCycles
end

section
/-! Proofs of the statements on the host's requests: `Reset` (70_reset_and_hazards.md R240) and `Load` (20_memory.md
R63). -/

namespace Sys2Proof.Proofs.HostRequests

open Sys2Proof.Machine Sys2Proof.Spec

/-- An address past the font reads as 0 right after reset (R240). -/
theorem resetByte_past_font {a : Nat} (h : 80 ≤ a) : resetByte a = 0 :=
  List.getD_eq_default _ _ (fontBytes_length ▸ h)

/-- The glyphs stand one after another, five bytes each (R52). -/
theorem resetByte_glyph : ∀ d < 16, ∀ j < 5, resetByte (5 * d + j) = (fontGlyphs.getD d []).getD j 0 := by
  decide

/-- Settles O56: `Reset` puts back the reset state, whose memory lists nothing and so reads as reset leaves it. -/
theorem resetLeavesTheResetValues : Obligations.ResetLeavesTheResetValues := by
  unfold Obligations.ResetLeavesTheResetValues
  intro s rest hreset
  refine ⟨_, step_of_reset hreset, rfl, rfl, rfl, rfl, rfl, rfl, ?regs, ?stack, Framebuffer.pixel_blank,
    fun d j hd hj => resetByte_glyph d hd j hj, fun a ha => congrArg BitVec.toNat (resetByte_past_font ha)⟩
  case regs => intro r; simp [State.reset]
  case stack => intro k; simp [State.reset]

/-- The bytes of `Load` (R63): the font, then the program cut to what fits, then what was there. -/
theorem read_load {m : Memory} (bytes : List Byte) (hwf : m.wf = true) :
    (∀ a, a < 80 → (m.load bytes).read a = fontBytes.getD a 0) ∧
    (∀ j, j < bytes.length → j < 3584 → (m.load bytes).read (0x200 + j) = bytes.getD j 0) ∧
    (∀ a, 80 ≤ a → (a < 0x200 ∨ 0x200 + min bytes.length 3584 ≤ a) → (m.load bytes).read a = m.read a) := by
  have hprogram : (bytes.take Config.maxProg).length = min bytes.length 3584 := by
    rw [List.length_take, Nat.min_comm]
  have hfont : fontBytes.length = 80 := fontBytes_length
  have hwfFont : (m.writeSpan Config.fontBase fontBytes).wf = true :=
    Memory.wf_writeSpan hwf (by rw [hfont]; decide)
  refine ⟨?font, ?program, ?rest⟩
  case font =>
    intro a ha
    have hfontByte := Memory.read_writeSpan_inside (base := Config.fontBase) hwf (by rw [hfont]; decide) (hfont ▸ ha)
    rw [Memory.load, Memory.read_writeSpan_outside (.inl (Nat.lt_trans ha (by decide))),
      List.getD_eq_getElem _ _ (hfont ▸ ha), ← hfontByte, Nat.zero_add]
  case program =>
    intro j hj hkept
    have hfits : Config.progBase + (bytes.take Config.maxProg).length ≤ Config.memSize := by
      rw [hprogram, Config.progBase, Config.memSize]; omega
    have hjProgram : j < (bytes.take Config.maxProg).length := hprogram ▸ Nat.lt_min.mpr ⟨hj, hkept⟩
    rw [Memory.load, Memory.read_writeSpan_inside hwfFont hfits hjProgram, List.getElem_take,
      List.getD_eq_getElem _ _ hj]
  case rest =>
    intro a ha hoff
    rw [Memory.load, Memory.read_writeSpan_outside (hprogram ▸ hoff),
      Memory.read_writeSpan_outside (.inr (by rw [hfont]; exact ha))]

/-- Settles O57: `Load` writes memory alone, two spans of it. -/
theorem loadWritesFontAndProgramOnly : Obligations.LoadWritesFontAndProgramOnly := by
  unfold Obligations.LoadWritesFontAndProgramOnly
  intro s bytes rest hwf hload
  exact ⟨_, step_of_load hload, rfl, rfl, fun _ => rfl, rfl, ⟨rfl, fun _ => rfl⟩, ⟨rfl, rfl⟩, fun _ _ => rfl,
    read_load bytes hwf⟩

end Sys2Proof.Proofs.HostRequests
end
